-- ==== Sys2Proof/Word.lean ====
section
/-! DEFINITION. The words of the LL127 core: the limb and the multi-limb integers (spec/00_scope.md R10, R11, R12).
Bit 0 is the least significant bit of every word, and every word is an unsigned integer. -/

namespace Sys2Proof

/-- A limb: a 64-bit chunk of a larger integer, and the width of every host access (R10, R61). -/
abbrev Limb := BitVec 64

/-- A Limb128: an unsigned integer in [0, 2^128), two limbs, least significant first (R12). -/
abbrev Limb128 := BitVec 128

/-- A Limb256: an unsigned integer in [0, 2^256), four limbs, least significant first (R12). -/
abbrev Limb256 := BitVec 256

/-- A command word: what a legal CMD write holds in its low half (R90). -/
abbrev CmdWord := BitVec 32

end Sys2Proof
end

