-- ==== Sys2Proof/Syntax.lean ====
section
/-! DEFINITION. The LL127 command set, spec edition 1: one constructor per row of spec/opcode_table.json
(spec/30_encoding.md R97, operands as R102 places them). -/

namespace Sys2Proof

/-- A 3-bit field that names an X register; all eight values are legal (R93). -/
abbrev XField := BitVec 3

/-- A 3-bit field that names a W register by its low two bits; its top bit is reserved and must be zero (R94).
The field is kept whole, so that a term with the reserved bit set can be written down and WellFormed refuses it. -/
abbrev WField := BitVec 3

/-- Which limb of an X register: the SA and SB selects of MULW (R93, R96), and the two limbs of R32. -/
inductive LimbSel where
  | lo
  | hi
  deriving DecidableEq, Repr

/-- The twelve commands. `rd` is the destination, `ra` and `rb` the sources, as in the formats R and I (R91, R92). -/
inductive Instr where
  /-- NOP, R240. -/
  | nop
  /-- ADD xd, xa, xb, R121. -/
  | add (rd ra rb : XField)
  /-- SUB xd, xa, xb, R123. -/
  | sub (rd ra rb : XField)
  /-- CMP xa, xb, R125. -/
  | cmp (ra rb : XField)
  /-- MULW xd, xa.L, xb.M, R141. -/
  | mulw (rd ra rb : XField) (sa sb : LimbSel)
  /-- SQR wd, xa, R161. -/
  | sqr (rd : WField) (ra : XField)
  /-- SUBW wd, wa, xb, R201. -/
  | subw (rd ra : WField) (rb : XField)
  /-- SUBWI wd, wa, imm, R203. -/
  | subwi (rd ra : WField) (imm : BitVec 16)
  /-- RED xd, wa, R184. -/
  | red (rd : XField) (ra : WField)
  /-- LLS xd, xa, R221. -/
  | lls (rd ra : XField)
  /-- LDI xd, imm, R242. -/
  | ldi (rd : XField) (imm : BitVec 16)
  /-- LDM xd, R244. -/
  | ldm (rd : XField)
  deriving DecidableEq, Repr

end Sys2Proof
end

