-- ==== Sys2Proof/WellFormed.lean ====
section
/-! DEFINITION. Which commands are well formed: the fields that name a W register have their reserved top bit clear
(spec/30_encoding.md R94). Every other field is legal at every value (R93, R95). -/

namespace Sys2Proof

/-- A field names a W register: its top bit is zero, so its value is 0 to 3 (R94). -/
def WField.ok (f : WField) : Bool := !f.getLsbD 2

/-- Every W field of the command names a W register (R94, R97). -/
def Instr.wellFormed : Instr → Bool
  | .nop => true
  | .add _ _ _ => true
  | .sub _ _ _ => true
  | .cmp _ _ => true
  | .mulw _ _ _ _ _ => true
  | .sqr rd _ => WField.ok rd
  | .subw rd ra _ => WField.ok rd && WField.ok ra
  | .subwi rd ra _ => WField.ok rd && WField.ok ra
  | .red _ ra => WField.ok ra
  | .lls _ _ => true
  | .ldi _ _ => true
  | .ldm _ => true

/-- `Instr.wellFormed` as a proposition; it is decidable. -/
abbrev Instr.WellFormed (i : Instr) : Prop := i.wellFormed = true

end Sys2Proof
end

