-- ==== Sys2Proof/Decode.lean ====
section
/-! DEFINITION. Command words: the fields, the opcode map, the decoder (total over all 2^64 CMD values) and the
encoder (spec/30_encoding.md R90 to R99, R102). -/

namespace Sys2Proof

/-! ### Fields of a command word (R91, R92, R93) -/

/-- OP = word[31:28]. -/
def opField (w : CmdWord) : BitVec 4 := w.extractLsb' 28 4

/-- RD = word[27:25]. -/
def rdField (w : CmdWord) : BitVec 3 := w.extractLsb' 25 3

/-- RA = word[24:22]. -/
def raField (w : CmdWord) : BitVec 3 := w.extractLsb' 22 3

/-- RB = word[21:19]. -/
def rbField (w : CmdWord) : BitVec 3 := w.extractLsb' 19 3

/-- A limb select bit: 0 is the low limb, 1 the high limb (R96). -/
def limbSelOfBit (b : Bool) : LimbSel := if b then .hi else .lo

/-- SA = word[18], the limb select for RA. -/
def saField (w : CmdWord) : LimbSel := limbSelOfBit (w.getLsbD 18)

/-- SB = word[17], the limb select for RB. -/
def sbField (w : CmdWord) : LimbSel := limbSelOfBit (w.getLsbD 17)

/-- IMM16 = word[15:0]. -/
def immField (w : CmdWord) : BitVec 16 := w.extractLsb' 0 16

/-! ### The opcode map (R97) -/

/-- One row of the opcode map: a word is of the row iff `word &&& mask = pattern`, and then `build` reads its fields. -/
structure OpcodeRow where
  mnemonic : String
  pattern : CmdWord
  mask : CmdWord
  build : CmdWord → Instr

def rowNop : OpcodeRow := ⟨"NOP", 0x00000000#32, 0xFFFFFFFF#32, fun _ => .nop⟩
def rowAdd : OpcodeRow := ⟨"ADD", 0x10000000#32, 0xF007FFFF#32, fun w => .add (rdField w) (raField w) (rbField w)⟩
def rowSub : OpcodeRow := ⟨"SUB", 0x20000000#32, 0xF007FFFF#32, fun w => .sub (rdField w) (raField w) (rbField w)⟩
def rowCmp : OpcodeRow := ⟨"CMP", 0x30000000#32, 0xFE07FFFF#32, fun w => .cmp (raField w) (rbField w)⟩
def rowMulw : OpcodeRow :=
  ⟨"MULW", 0x40000000#32, 0xF001FFFF#32, fun w => .mulw (rdField w) (raField w) (rbField w) (saField w) (sbField w)⟩
def rowSqr : OpcodeRow := ⟨"SQR", 0x50000000#32, 0xF83FFFFF#32, fun w => .sqr (rdField w) (raField w)⟩
def rowSubw : OpcodeRow := ⟨"SUBW", 0x60000000#32, 0xF907FFFF#32, fun w => .subw (rdField w) (raField w) (rbField w)⟩
def rowSubwi : OpcodeRow :=
  ⟨"SUBWI", 0x70000000#32, 0xF93F0000#32, fun w => .subwi (rdField w) (raField w) (immField w)⟩
def rowRed : OpcodeRow := ⟨"RED", 0x80000000#32, 0xF13FFFFF#32, fun w => .red (rdField w) (raField w)⟩
def rowLls : OpcodeRow := ⟨"LLS", 0x90000000#32, 0xF03FFFFF#32, fun w => .lls (rdField w) (raField w)⟩
def rowLdi : OpcodeRow := ⟨"LDI", 0xA0000000#32, 0xF1FF0000#32, fun w => .ldi (rdField w) (immField w)⟩
def rowLdm : OpcodeRow := ⟨"LDM", 0xB0000000#32, 0xF1FFFFFF#32, fun w => .ldm (rdField w)⟩

/-- The opcode map, in the order of R97. -/
def opcodeRows : List OpcodeRow :=
  [rowNop, rowAdd, rowSub, rowCmp, rowMulw, rowSqr, rowSubw, rowSubwi, rowRed, rowLls, rowLdi, rowLdm]

/-- The row of a command. -/
def Instr.row : Instr → OpcodeRow
  | .nop => rowNop
  | .add _ _ _ => rowAdd
  | .sub _ _ _ => rowSub
  | .cmp _ _ => rowCmp
  | .mulw _ _ _ _ _ => rowMulw
  | .sqr _ _ => rowSqr
  | .subw _ _ _ => rowSubw
  | .subwi _ _ _ => rowSubwi
  | .red _ _ => rowRed
  | .lls _ _ => rowLls
  | .ldi _ _ => rowLdi
  | .ldm _ => rowLdm

/-- The word is of the row: `(word & mask) == match` (R97). -/
def OpcodeRow.hits (r : OpcodeRow) (w : CmdWord) : Bool := w &&& r.mask == r.pattern

/-! ### Decoding (R98) and the names of the illegal cases (R99) -/

/-- Why a CMD value is illegal: the cases of R99. Where several hold, one is named; the name is no state of the block
(R262: the value is not recorded). -/
inductive Illegal where
  /-- v[63:32] is not zero (R90). -/
  | highHalf
  /-- OP is 0xC, 0xD, 0xE or 0xF. -/
  | reservedOpcode
  /-- OP is 0x0 and the word is not all zeros. -/
  | nopNotZero
  /-- A field that names a W register has its top bit set (R94). -/
  | wField
  /-- The RD field of CMP is not zero. -/
  | cmpRd
  /-- A register field the command does not use (RA or RB of LDI or LDM, RB of SUBWI, SQR, RED or LLS) is not zero. -/
  | unusedRegisterField
  /-- Another reserved-zero bit of the word's row is 1. -/
  | reservedBit
  deriving DecidableEq, Repr

/-- A W field of the word, by its OP, has its reserved bit set: word[27] for SQR, SUBW and SUBWI, word[24] for SUBW,
SUBWI and RED (R94). -/
def wFieldBroken (w : CmdWord) : Bool :=
  match (opField w).toNat with
  | 5 => w.getLsbD 27
  | 6 => w.getLsbD 27 || w.getLsbD 24
  | 7 => w.getLsbD 27 || w.getLsbD 24
  | 8 => w.getLsbD 24
  | _ => false

/-- A register field that the word's OP does not use is not zero (R93, R99). -/
def unusedFieldBroken (w : CmdWord) : Bool :=
  match (opField w).toNat with
  | 5 => rbField w != 0
  | 7 => rbField w != 0
  | 8 => rbField w != 0
  | 9 => rbField w != 0
  | 10 => raField w != 0 || rbField w != 0
  | 11 => raField w != 0 || rbField w != 0
  | _ => false

/-- The name of an illegal word's case (R99). -/
def illegalCase (w : CmdWord) : Illegal :=
  if 12 ≤ (opField w).toNat then .reservedOpcode
  else if (opField w).toNat = 0 then .nopNotZero
  else if wFieldBroken w then .wField
  else if (opField w).toNat = 3 ∧ rdField w ≠ 0 then .cmpRd
  else if unusedFieldBroken w then .unusedRegisterField
  else .reservedBit

/-- Decode a command word: the row that matches, with its fields, or an illegal case (R97, R98). -/
def decodeWord (w : CmdWord) : Except Illegal Instr :=
  match opcodeRows.find? (fun r => r.hits w) with
  | some r => .ok (r.build w)
  | none => .error (illegalCase w)

/-- Decode a CMD value: bits 63:32 must be zero, and the word is bits 31:0 (R90, R98). -/
def decode (v : BitVec 64) : Except Illegal Instr :=
  if v.extractLsb' 32 32 ≠ 0 then .error .highHalf else decodeWord (v.extractLsb' 0 32)

/-! ### Encoding (R102) -/

/-- The limb select bit (R102: L = hi ? 1 : 0). -/
def LimbSel.bit : LimbSel → BitVec 1
  | .lo => 0
  | .hi => 1

/-- Format R: `OP<<28 | RD<<25 | RA<<22 | RB<<19 | SA<<18 | SB<<17` (R91, R102). -/
def formatR (op : BitVec 4) (rd ra rb : BitVec 3) (sa sb : BitVec 1) : CmdWord :=
  (op.setWidth 32 <<< 28) ||| (rd.setWidth 32 <<< 25) ||| (ra.setWidth 32 <<< 22) ||| (rb.setWidth 32 <<< 19)
    ||| (sa.setWidth 32 <<< 18) ||| (sb.setWidth 32 <<< 17)

/-- Format I: `OP<<28 | RD<<25 | RA<<22 | IMM16` (R92, R102). -/
def formatI (op : BitVec 4) (rd ra : BitVec 3) (imm : BitVec 16) : CmdWord :=
  (op.setWidth 32 <<< 28) ||| (rd.setWidth 32 <<< 25) ||| (ra.setWidth 32 <<< 22) ||| imm.setWidth 32

/-- The command word of a command (R102); the word of an ill-formed command is illegal. -/
def encodeWord : Instr → CmdWord
  | .nop => formatR 0x0 0 0 0 0 0
  | .add rd ra rb => formatR 0x1 rd ra rb 0 0
  | .sub rd ra rb => formatR 0x2 rd ra rb 0 0
  | .cmp ra rb => formatR 0x3 0 ra rb 0 0
  | .mulw rd ra rb sa sb => formatR 0x4 rd ra rb sa.bit sb.bit
  | .sqr rd ra => formatR 0x5 rd ra 0 0 0
  | .subw rd ra rb => formatR 0x6 rd ra rb 0 0
  | .subwi rd ra imm => formatI 0x7 rd ra imm
  | .red rd ra => formatR 0x8 rd ra 0 0 0
  | .lls rd ra => formatR 0x9 rd ra 0 0 0
  | .ldi rd imm => formatI 0xA rd 0 imm
  | .ldm rd => formatR 0xB rd 0 0 0 0

/-- The CMD value that issues a command: the word, zero-extended (R90). -/
def encode (i : Instr) : BitVec 64 := (encodeWord i).setWidth 64

/-- What the decoder reads from the opcode table's bits `w`, numbered as the table numbers them: a command is one
32-bit word, bit 0 its least significant bit, and the CMD value's other bits are 0. -/
def decodeTableWord (nbits w : Nat) : Option Instr :=
  match decode (BitVec.ofNat 64 (w % 2 ^ nbits)) with
  | .ok i => some i
  | .error _ => none

end Sys2Proof
end

