-- ==== Sys2Proof/Config.lean ====
section
/-! DEFINITION. What is fixed for the block (spec/00_scope.md R10, spec/10_state.md R38) and the one free value of the
model. The open parameters P_BASE and P_INSTANCES are arguments of Sys2Proof.Machine.Platform, as R10 asks. -/

namespace Sys2Proof

/-- The Mersenne exponent p (R3, R10). -/
def Config.mersenneExponent : Nat := 127

/-- M127 = 2^127 - 1, low limb all ones, high limb 63 ones: the constant of MOD, RED, LLS and LDM (R3, R38). -/
def Config.m127 : Limb128 := 0x7FFFFFFFFFFFFFFFFFFFFFFFFFFFFFFF#128

/-- The size of the host window in bytes (R10, R60). -/
def Config.windowBytes : Nat := 4096

/-- The one width in bits of a supported host access (R10, R64). -/
def Config.accessBits : Nat := 64

/-- The iteration count p - 2 of the host driver (R10, R225). -/
def Config.driverIterations : Nat := 125

/-- Which read of an access asks for a limb: a command's first source or its second; a host read is a first. -/
inductive Config.ReadPort where
  | a
  | b
  deriving DecidableEq, Repr

/-- FREE VALUE (R44, spec/93_implementation_defined.md U1; notes/assumptions/1.md). What the hardware returns for a
never-written limb: in the stream of free values `stream` that the instance draws from, in its access number `access`, at
read port `port`, for the limb at window offset `offset`. It has no body, so no proof can see it; it depends on the
access and the port, so no proof can assume that two reads of one never-written limb return the same value, and on the
stream, so none can assume it of the reads of two instances (R46, R272; notes/assumptions/18.md). -/
opaque Config.unwrittenLimb (stream access : Nat) (port : Config.ReadPort) (offset : Nat) : Limb

end Sys2Proof
end

