-- ==== Sys2Proof/Machine/Limbs.lean ====
section
/-! DEFINITION. Limbs of the multi-limb integers, least significant first (spec/00_scope.md R12, R13), and the byte
lanes of a limb on a byte-addressed bus (spec/20_memory.md R65). -/

namespace Sys2Proof.Machine

/-- v.lo = v[63:0] (R12). -/
def lo128 (v : Limb128) : Limb := v.extractLsb' 0 64

/-- v.hi = v[127:64] (R12). -/
def hi128 (v : Limb128) : Limb := v.extractLsb' 64 64

/-- `hi ++ lo` (R13): v = v.hi · 2^64 + v.lo (R12). -/
def join128 (hi lo : Limb) : Limb128 := hi ++ lo

/-- w.limb[k] = w[64k+63:64k] (R12). -/
def limb256 (w : Limb256) (k : Nat) : Limb := w.extractLsb' (64 * k) 64

/-- `limb3 ++ limb2 ++ limb1 ++ limb0` (R12, R13). -/
def join256 (l3 l2 l1 l0 : Limb) : Limb256 := l3 ++ l2 ++ l1 ++ l0

/-- Byte n of the 8-byte access is bits 8n+7:8n of the limb, on a byte-addressed bridge (R65). -/
def busByte (v : Limb) (n : Nat) : BitVec 8 := v.extractLsb' (8 * n) 8

/-- The eight byte lanes of a limb, byte 0 first (R65). -/
def busBytes (v : Limb) : List (BitVec 8) := (List.range 8).map (busByte v)

/-- The limb of eight byte lanes, byte 0 first (R65); lanes that the list lacks are 0. -/
def limbOfBytes : List (BitVec 8) → Limb
  | [] => 0
  | b :: bs => b.setWidth 64 ||| (limbOfBytes bs <<< 8)

end Sys2Proof.Machine
end

