-- ==== Sys2Proof/Machine/Arith.lean ====
section
/-! DEFINITION. The arithmetic functions of spec/00_scope.md R17, each by the value its rule makes normative. The limb
procedures of the same rules are in Machine/Datapath.lean; the reducer has no other definition than its datapath
(spec/44_reduce.md R180 to R183, spec/90_conflicts.md C1). -/

namespace Sys2Proof.Machine

/-- `add128(a, b) = (a + b) mod 2^128` (R120). -/
def add128 (a b : Limb128) : Limb128 := BitVec.ofNat 128 (a.toNat + b.toNat)

/-- `sub128(a, b) = (a - b) mod 2^128` (R122). -/
def sub128 (a b : Limb128) : Limb128 := BitVec.ofInt 128 ((a.toNat : Int) - (b.toNat : Int))

/-- The result of a compare (R124). -/
inductive Comparison where
  | less
  | equal
  | greater
  deriving DecidableEq, Repr

/-- `cmp128(a, b)`: high limbs first, then low limbs on a tie, unsigned (R124). -/
def cmp128 (a b : Limb128) : Comparison :=
  if (hi128 a).toNat < (hi128 b).toNat then .less
  else if (hi128 b).toNat < (hi128 a).toNat then .greater
  else if (lo128 a).toNat < (lo128 b).toNat then .less
  else if (lo128 b).toNat < (lo128 a).toNat then .greater
  else .equal

/-- `mul64(a, b) = a · b`, the exact product (R140). -/
def mul64 (a b : Limb) : Limb128 := BitVec.ofNat 128 (a.toNat * b.toNat)

/-- `sqr128(s) = s · s`, the exact square (R160). -/
def sqr128 (s : Limb128) : Limb256 := BitVec.ofNat 256 (s.toNat * s.toNat)

/-- `subs256(x, v) = (x - v) mod 2^256` (R200). -/
def subs256 (x : Limb256) (v : Limb) : Limb256 := BitVec.ofInt 256 ((x.toNat : Int) - (v.toNat : Int))

/-- The split's low half: all of limb 0 and the low 63 bits of limb 1 (R180). -/
def splitLow (x : Limb256) : Limb128 := join128 (limb256 x 1 &&& 0x7FFFFFFFFFFFFFFF#64) (limb256 x 0)

/-- The split's high half, kept to 128 bits: bit 255 of x is dropped (R180, D16). -/
def splitHigh (x : Limb256) : Limb128 :=
  join128 ((limb256 x 2 >>> 63) ||| (limb256 x 3 <<< 1)) ((limb256 x 1 >>> 63) ||| (limb256 x 2 <<< 1))

/-- The first fold: the two halves through the 128-bit adder, its carry out discarded (R181). -/
def firstFold (x : Limb256) : Limb128 := add128 (splitLow x) (splitHigh x)

/-- The second fold: if bit 127 is set, clear it and add 1 at bit 0, a wrap of the low limb carrying into the high
limb (R182, C3). -/
def secondFold (r : Limb128) : Limb128 :=
  if (hi128 r).getLsbD 63 then
    join128 ((hi128 r &&& 0x7FFFFFFFFFFFFFFF#64) + (if lo128 r + 1 = 0 then 1 else 0)) (lo128 r + 1)
  else r

/-- The final normalisation: subtract M127 once unless r is below it (R183). -/
def normalise127 (r : Limb128) : Limb128 :=
  if cmp128 r Config.m127 = .less then r else sub128 r Config.m127

/-- `red127(x)`: split, fold, fold once more, normalise (R180 to R183). -/
def red127 (x : Limb256) : Limb128 := normalise127 (secondFold (firstFold x))

/-- `llstep(s)`: square, subtract 2, reduce (R220). -/
def llstep (s : Limb128) : Limb128 := red127 (subs256 (sqr128 s) 2)

end Sys2Proof.Machine
end

