-- ==== Sys2Proof/Machine/State.lean ====
section
/-! DEFINITION. The state of one instance of the LL127 core, with the host that drives it (spec/10_state.md,
spec/20_memory.md, spec/70_reset_and_hazards.md), and the reasons a step can stop. MOD is hard-wired (R38) and CMD
holds no state (R39): both are answered by the one operation that reads the window (Machine/Window.lean). -/

namespace Sys2Proof.Machine

/-- The name of one limb of the register files: X[i].lo, X[i].hi or W[j].limb[k] (R32, R33). -/
inductive LimbName where
  | x (i : BitVec 3) (l : LimbSel)
  | w (j : BitVec 2) (k : BitVec 2)
  deriving DecidableEq, Repr

/-- What makes a run faulted. It is RECORDED in `State.runFault` and stops nothing (safe: a claim about a clean run
has `runFault = none` as a premise; notes/assumptions/1.md). No access and no command ends in `Outcome.fault`
(R260, R266). -/
inductive Fault where
  /-- A command or a host read read this limb, which nothing had written since reset (R44; U1 of
  spec/93_implementation_defined.md: "the run is faulted, and the model records it"). Recorded by `State.noteLimb`.
  Safe. -/
  | readBeforeWrite (n : LimbName)
  deriving DecidableEq, Repr

/-- Why the model gives an access no meaning. Every one of these is safe: the model stops where the spec says that the
result is unspecified and that a model must refuse it. No command of the opcode table is refused. -/
inductive Refusal where
  /-- An instruction with no meaning yet; raised by no arm of exec. Safe. -/
  | notModelled (mnemonic : String)
  /-- A host access that is not 64 bits wide (R64, U2). Raised by `unsupportedAccess`. Safe. -/
  | accessWidth (bits : Nat)
  /-- A host access at an offset of 0x1000 or more (R64, U2). Raised by `unsupportedAccess`. Safe. -/
  | accessOutsideWindow (offset : Nat)
  /-- A host access at an offset that is not 8-byte aligned (R64, U2). Raised by `unsupportedAccess`. Safe. -/
  | accessMisaligned (offset : Nat)
  /-- A host access made while reset is asserted (R290, U3). Raised by `accessRefusal`. Safe. -/
  | accessDuringReset
  /-- A host access after a loss of power, before reset was applied (R274, U3). Raised by `accessRefusal`. Safe. -/
  | accessBeforeReset
  /-- A reset asserted during a host access (R290, U3). Raised by `perform`. Safe. -/
  | resetDuringAccess
  deriving DecidableEq, Repr

/-- One limb of a register: the value it holds, and whether a host write or a command has written it since reset.
The second is the model's own record (R44: "The hardware has no bit that records whether a limb was written"). -/
structure RegLimb where
  value : Limb
  written : Bool
  deriving DecidableEq, Repr

/-- An X register: two limbs (R31, R32). -/
structure XRegister where
  lo : RegLimb
  hi : RegLimb
  deriving DecidableEq, Repr

/-- A W register: four limbs, least significant first (R33). -/
structure WRegister where
  limb : Vector RegLimb 4
  deriving DecidableEq, Repr

/-- The STATUS.CMP field: NONE 0b00, LESS 0b01, EQUAL 0b10, GREATER 0b11 (R36). -/
inductive CmpField where
  | none
  | less
  | equal
  | greater
  deriving DecidableEq, Repr

/-- The fields of STATUS (R35). Its bits 63:4 are reserved, read as 0 and ignore writes, so they hold no state. -/
structure Status where
  /-- Bits 1:0, the result of the most recent CMP (R36). -/
  cmp : CmpField
  /-- Bit 2, sticky: an LLS operand was M127 or more (R37). -/
  dom : Bool
  /-- Bit 3, sticky: a CMD write held an illegal value (R37). -/
  ill : Bool
  deriving DecidableEq, Repr

/-- The reset input and the power (R290, R274). -/
inductive Phase where
  /-- Reset has been applied and released: accesses are performed. -/
  | running
  /-- The reset input is asserted. -/
  | inReset
  /-- Power was lost and reset has not been applied since. -/
  | awaitingReset
  deriving DecidableEq, Repr

/-- What the outside does to the block, one at a time (R30, R62, R63, R69, R274, R290). `width` is the access's width
in bits and `offset` its window offset in bytes. -/
inductive HostEvent where
  /-- A host read. -/
  | read (width offset : Nat)
  /-- A host write of `v`. -/
  | write (width offset : Nat) (v : Limb)
  /-- The platform asserts the reset input, between accesses. -/
  | assertReset
  /-- The platform releases the reset input. -/
  | releaseReset
  /-- The platform asserts the reset input during an access. -/
  | resetDuringAccess
  /-- The power is lost and returns; what the block then holds is not specified (R274; notes/assumptions/19.md). -/
  | powerLoss
  deriving DecidableEq, Repr

/-- One instance of the block (R46) and its host. -/
structure State where
  /-- X0 to X7 (R31). -/
  x : Vector XRegister 8
  /-- W0 to W3 (R33). -/
  w : Vector WRegister 4
  /-- STATUS (R35). -/
  status : Status
  /-- The reset input and the power (R274, R290). -/
  phase : Phase
  /-- The host's events that the block has not performed yet, in the one total order of R69. -/
  pending : List HostEvent
  /-- What the host's reads returned (R62), newest first. -/
  answers : List Limb
  /-- The model's own: how many events have been performed; it picks the free values of never-written limbs. -/
  accessNo : Nat
  /-- The model's own: the stream of free values this instance draws from. No register, command or access shows it or
  changes it (the block has no instance identifier, R272; DESIGN CHOICE, notes/assumptions/18.md). -/
  freeStream : Nat
  /-- The model's own record of the run's first read before write (U1). -/
  runFault : Option Fault
  deriving DecidableEq, Repr

/-- A limb right after reset: never-written (R43, R44). The 0 it holds is a placeholder that no read returns
(DESIGN CHOICE, notes/assumptions/2.md). -/
def RegLimb.afterReset : RegLimb := ⟨0, false⟩

/-- An X register right after reset. -/
def XRegister.afterReset : XRegister := ⟨RegLimb.afterReset, RegLimb.afterReset⟩

/-- A W register right after reset. -/
def WRegister.afterReset : WRegister := ⟨Vector.replicate 4 RegLimb.afterReset⟩

/-- STATUS right after reset: CMP is NONE, DOM and ILL are 0 (R43, R290). -/
def Status.afterReset : Status := ⟨.none, false, false⟩

/-- The machine right after reset (R43, R290, R291): idle, with no access performed and none pending. -/
def State.reset : State where
  x := Vector.replicate 8 XRegister.afterReset
  w := Vector.replicate 4 WRegister.afterReset
  status := Status.afterReset
  phase := .running
  pending := []
  answers := []
  accessNo := 0
  freeStream := 0
  runFault := Option.none

end Sys2Proof.Machine
end

