-- ==== Sys2Proof/Machine/Ops.lean ====
section
/-! DEFINITION. The named operations over the state: one update per field, reading and writing limbs and whole
registers, what a run records about never-written limbs, IllegalCommand (the block's one exception-like event) and the
host's clearing of events. -/

namespace Sys2Proof.Machine

/-! ### One update per field -/

/-- Replace X register i. -/
def State.withX (s : State) (i : BitVec 3) (r : XRegister) : State := { s with x := s.x.set i.toNat r i.isLt }

/-- Replace W register j. -/
def State.withW (s : State) (j : BitVec 2) (r : WRegister) : State := { s with w := s.w.set j.toNat r j.isLt }

/-- Replace STATUS. -/
def State.withStatus (s : State) (st : Status) : State := { s with status := st }

/-- Replace the phase of reset and power. -/
def State.withPhase (s : State) (p : Phase) : State := { s with phase := p }

/-- Replace the host's events to come. -/
def State.withPending (s : State) (es : List HostEvent) : State := { s with pending := es }

/-- Replace the record of the run's fault. -/
def State.withRunFault (s : State) (f : Option Fault) : State := { s with runFault := f }

/-- Replace the stream of free values the instance draws from. -/
def State.withFreeStream (s : State) (k : Nat) : State := { s with freeStream := k }

/-- Hand the host the value of a read (R62). -/
def State.pushAnswer (s : State) (v : Limb) : State := { s with answers := v :: s.answers }

/-- Count one event performed; a later read of a never-written limb draws another free value (U1). -/
def State.nextAccess (s : State) : State := { s with accessNo := s.accessNo + 1 }

/-! ### Limbs -/

/-- X register i. -/
def State.xReg (s : State) (i : BitVec 3) : XRegister := s.x[i.toNat]'i.isLt

/-- W register j. -/
def State.wReg (s : State) (j : BitVec 2) : WRegister := s.w[j.toNat]'j.isLt

/-- One limb of the register files. -/
def State.cell (s : State) : LimbName → RegLimb
  | .x i .lo => (s.xReg i).lo
  | .x i .hi => (s.xReg i).hi
  | .w j k => (s.wReg j).limb[k.toNat]'k.isLt

/-- The window offset of a limb (R61). -/
def LimbName.offset : LimbName → Nat
  | .x i .lo => 16 * i.toNat
  | .x i .hi => 16 * i.toNat + 8
  | .w j k => 0x080 + 32 * j.toNat + 8 * k.toNat

/-- Something has written the limb since reset (R44). -/
def State.isWritten (s : State) (n : LimbName) : Bool := (s.cell n).written

/-- What a read of a limb returns: its value; of a never-written limb, an unspecified value (R44, U1). -/
def State.readLimb (s : State) (p : Config.ReadPort) (n : LimbName) : Limb :=
  if s.isWritten n then (s.cell n).value else Config.unwrittenLimb s.freeStream s.accessNo p n.offset

/-- Record a read of a limb: the first read of a never-written limb makes the run faulted (R44, U1). -/
def State.noteLimb (s : State) (n : LimbName) : State :=
  match s.runFault with
  | some _ => s
  | none => if s.isWritten n then s else s.withRunFault (some (.readBeforeWrite n))

/-- Write one limb; the register's other limbs keep their values (R32, R33, R63). -/
def State.writeLimb (s : State) (n : LimbName) (v : Limb) : State :=
  match n with
  | .x i .lo => s.withX i { s.xReg i with lo := ⟨v, true⟩ }
  | .x i .hi => s.withX i { s.xReg i with hi := ⟨v, true⟩ }
  | .w j k => s.withW j ⟨(s.wReg j).limb.set k.toNat ⟨v, true⟩ k.isLt⟩

/-! ### Whole registers -/

/-- Read X[i] as a 128-bit value (R14). -/
def State.readX (s : State) (p : Config.ReadPort) (i : BitVec 3) : Limb128 :=
  join128 (s.readLimb p (.x i .hi)) (s.readLimb p (.x i .lo))

/-- Record a read of both limbs of X[i]. -/
def State.noteX (s : State) (i : BitVec 3) : State := (s.noteLimb (.x i .lo)).noteLimb (.x i .hi)

/-- Write X[i]: both limbs together (R32). -/
def State.writeX (s : State) (i : BitVec 3) (v : Limb128) : State :=
  s.withX i ⟨⟨lo128 v, true⟩, ⟨hi128 v, true⟩⟩

/-- Read W[j] as a 256-bit value (R14). -/
def State.readW (s : State) (p : Config.ReadPort) (j : BitVec 2) : Limb256 :=
  join256 (s.readLimb p (.w j 3)) (s.readLimb p (.w j 2)) (s.readLimb p (.w j 1)) (s.readLimb p (.w j 0))

/-- Record a read of the four limbs of W[j]. -/
def State.noteW (s : State) (j : BitVec 2) : State :=
  (((s.noteLimb (.w j 0)).noteLimb (.w j 1)).noteLimb (.w j 2)).noteLimb (.w j 3)

/-- Write W[j]: all four limbs together (R33). -/
def State.writeW (s : State) (j : BitVec 2) (v : Limb256) : State :=
  s.withW j ⟨#v[⟨limb256 v 0, true⟩, ⟨limb256 v 1, true⟩, ⟨limb256 v 2, true⟩, ⟨limb256 v 3, true⟩]⟩

/-! ### Events (R260 to R267): the block takes no trap, so these two are the whole of exception entry and return -/

/-- `raise IllegalCommand(v)`: STATUS.ILL becomes 1 and nothing else changes; v is not recorded (R262). -/
def State.raiseIllegalCommand (s : State) (_v : BitVec 64) : State := s.withStatus { s.status with ill := true }

/-- A host write of v to STATUS: bit 2 clears DOM, bit 3 clears ILL; every other bit is ignored (R37, R63, R267). -/
def State.clearEvents (s : State) (v : Limb) : State :=
  s.withStatus { s.status with dom := s.status.dom && !v.getLsbD 2, ill := s.status.ill && !v.getLsbD 3 }

/-- The block's own state after reset: every limb never-written, STATUS 0 (R43, R290). -/
def State.applyReset (s : State) : State :=
  { s with
    x := Vector.replicate 8 XRegister.afterReset
    w := Vector.replicate 4 WRegister.afterReset
    status := Status.afterReset }

end Sys2Proof.Machine
end

