-- ==== Sys2Proof/Machine/Flags.lean ====
section
/-! DEFINITION. The fields of STATUS: how the compare result and the domain event are computed, and the word a host
reads (spec/10_state.md R35 to R37, R40). There are no other flags. -/

namespace Sys2Proof.Machine

/-- The two bits of STATUS.CMP (R36). -/
def CmpField.bits : CmpField → BitVec 2
  | .none => 0b00
  | .less => 0b01
  | .equal => 0b10
  | .greater => 0b11

/-- The field a compare result is stored as (R125). -/
def cmpFieldOf : Comparison → CmpField
  | .less => .less
  | .equal => .equal
  | .greater => .greater

/-- CMP writes STATUS.CMP and no other field (R36, R125). -/
def State.setCmp (s : State) (r : Comparison) : State := s.withStatus { s.status with cmp := cmpFieldOf r }

/-- The operand is outside the domain 0 ≤ s < M127 of the step (R221, R263). -/
def outsideDomain (v : Limb128) : Bool := cmp128 v Config.m127 != .less

/-- LLS sets DOM when its operand is outside the domain and otherwise leaves it (R37, R221). -/
def State.reportDomain (s : State) (v : Limb128) : State :=
  s.withStatus { s.status with dom := s.status.dom || outsideDomain v }

/-- One bit as a number. -/
def bitOf (b : Bool) : BitVec 1 := if b then 1 else 0

/-- STATUS as a host reads it: `zext_64(STATUS.ILL ++ STATUS.DOM ++ STATUS.CMP)` (R35, R62). -/
def statusWord (st : Status) : Limb := (bitOf st.ill ++ bitOf st.dom ++ st.cmp.bits).setWidth 64

end Sys2Proof.Machine
end

