-- ==== Sys2Proof/Machine/Operands.lean ====
section
/-! DEFINITION. The operand forms of the commands (spec/30_encoding.md R93 to R96). A whole X or W register is read by
State.readX and State.readW. -/

namespace Sys2Proof.Machine

/-- The W register that a field names: W[field[1:0]] (R94). -/
def wIndex (f : WField) : BitVec 2 := f.extractLsb' 0 2

/-- The limb of X[i] that MULW's select names: the low limb at 0, the high limb at 1 (R96). -/
def selectedLimb (i : XField) (sel : LimbSel) : LimbName := .x i sel

/-- The limb that SUBW subtracts, X[RB].lo; X[RB].hi is not read (R201). -/
def subwLimb (i : XField) : LimbName := .x i .lo

/-- `zext_128(IMM16)`, LDI's value (R95, R242). -/
def immTo128 (imm : BitVec 16) : Limb128 := imm.setWidth 128

/-- IMM16 zero-extended, SUBWI's subtrahend (R95, R203). -/
def immToLimb (imm : BitVec 16) : Limb := imm.setWidth 64

end Sys2Proof.Machine
end

