-- ==== Sys2Proof/Machine/Alu.lean ====
section
/-! DEFINITION. The double-limb ALU: ADD, SUB, CMP (spec/41_alu128.md). -/

namespace Sys2Proof.Machine

/-- ADD: X[RD] becomes `add128(X[RA], X[RB])`; no flag is written (R121). -/
def execAdd (rd ra rb : XField) (s : State) : Host.Outcome State Fault Refusal :=
  .next (((s.noteX ra).noteX rb).writeX rd (add128 (s.readX .a ra) (s.readX .b rb)))

/-- SUB: X[RD] becomes `sub128(X[RA], X[RB])`; no flag is written (R123). -/
def execSub (rd ra rb : XField) (s : State) : Host.Outcome State Fault Refusal :=
  .next (((s.noteX ra).noteX rb).writeX rd (sub128 (s.readX .a ra) (s.readX .b rb)))

/-- CMP: STATUS.CMP becomes the result of `cmp128(X[RA], X[RB])`; nothing else is written (R125). -/
def execCmp (ra rb : XField) (s : State) : Host.Outcome State Fault Refusal :=
  .next (((s.noteX ra).noteX rb).setCmp (cmp128 (s.readX .a ra) (s.readX .b rb)))

end Sys2Proof.Machine
end

