-- ==== Sys2Proof/Machine/Auxiliary.lean ====
section
/-! DEFINITION. The auxiliary commands: NOP, LDI, LDM (spec/48_aux.md). -/

namespace Sys2Proof.Machine

/-- NOP changes no state (R240). -/
def execNop (s : State) : Host.Outcome State Fault Refusal := .next s

/-- LDI: X[RD] becomes `zext_128(IMM16)` (R242). -/
def execLdi (rd : XField) (imm : BitVec 16) (s : State) : Host.Outcome State Fault Refusal :=
  .next (s.writeX rd (immTo128 imm))

/-- LDM: X[RD] becomes M127, the constant of MOD (R38, R244). -/
def execLdm (rd : XField) (s : State) : Host.Outcome State Fault Refusal := .next (s.writeX rd Config.m127)

end Sys2Proof.Machine
end

