-- ==== Sys2Proof/Machine/LucasLehmer.lean ====
section
/-! DEFINITION. The Lucas–Lehmer step: LLS (spec/46_llstep.md). -/

namespace Sys2Proof.Machine

/-- LLS: STATUS.DOM is set if X[RA] is outside the domain, and X[RD] becomes `llstep(X[RA])` in any case; no W register
is read or written (R42, R221, R223). -/
def execLls (rd ra : XField) (s : State) : Host.Outcome State Fault Refusal :=
  .next (((s.noteX ra).reportDomain (s.readX .a ra)).writeX rd (llstep (s.readX .a ra)))

end Sys2Proof.Machine
end

