-- ==== Sys2Proof/Machine/Multiply.lean ====
section
/-! DEFINITION. The widening multiplier and the squarer: MULW, SQR (spec/42_mulw.md, spec/43_square.md). -/

namespace Sys2Proof.Machine

/-- MULW: X[RD] becomes the exact product of the two selected limbs; only these two limbs are read (R96, R141). -/
def execMulw (rd ra rb : XField) (sa sb : LimbSel) (s : State) : Host.Outcome State Fault Refusal :=
  .next (((s.noteLimb (selectedLimb ra sa)).noteLimb (selectedLimb rb sb)).writeX rd
    (mul64 (s.readLimb .a (selectedLimb ra sa)) (s.readLimb .b (selectedLimb rb sb))))

/-- SQR: W[RD[1:0]] becomes the exact square of X[RA] (R161). -/
def execSqr (rd : WField) (ra : XField) (s : State) : Host.Outcome State Fault Refusal :=
  .next ((s.noteX ra).writeW (wIndex rd) (sqr128 (s.readX .a ra)))

end Sys2Proof.Machine
end

