-- ==== Sys2Proof/Machine/Wide.lean ====
section
/-! DEFINITION. The quad-limb subtractor and the reducer: SUBW, SUBWI, RED (spec/45_subw.md, spec/44_reduce.md). -/

namespace Sys2Proof.Machine

/-- SUBW: W[RD[1:0]] becomes `subs256(W[RA[1:0]], X[RB].lo)` (R201). -/
def execSubw (rd ra : WField) (rb : XField) (s : State) : Host.Outcome State Fault Refusal :=
  .next (((s.noteW (wIndex ra)).noteLimb (subwLimb rb)).writeW (wIndex rd)
    (subs256 (s.readW .a (wIndex ra)) (s.readLimb .b (subwLimb rb))))

/-- SUBWI: W[RD[1:0]] becomes `subs256(W[RA[1:0]], IMM16)` (R203). -/
def execSubwi (rd ra : WField) (imm : BitVec 16) (s : State) : Host.Outcome State Fault Refusal :=
  .next ((s.noteW (wIndex ra)).writeW (wIndex rd) (subs256 (s.readW .a (wIndex ra)) (immToLimb imm)))

/-- RED: X[RD] becomes `red127(W[RA[1:0]])`; no flag reports an inexact input (R184). -/
def execRed (rd : XField) (ra : WField) (s : State) : Host.Outcome State Fault Refusal :=
  .next ((s.noteW (wIndex ra)).writeX rd (red127 (s.readW .a (wIndex ra))))

end Sys2Proof.Machine
end

