-- ==== Sys2Proof/Machine/Dispatch.lean ====
section
/-! DEFINITION. What each command does: one arm per constructor of Instr. -/

namespace Sys2Proof.Machine

def exec (i : Instr) (s : State) : Host.Outcome State Fault Refusal :=
  match i with
  | .nop => Sys2Proof.Machine.execNop s
  | .add rd ra rb => Sys2Proof.Machine.execAdd rd ra rb s
  | .sub rd ra rb => Sys2Proof.Machine.execSub rd ra rb s
  | .cmp ra rb => Sys2Proof.Machine.execCmp ra rb s
  | .mulw rd ra rb sa sb => Sys2Proof.Machine.execMulw rd ra rb sa sb s
  | .sqr rd ra => Sys2Proof.Machine.execSqr rd ra s
  | .subw rd ra rb => Sys2Proof.Machine.execSubw rd ra rb s
  | .subwi rd ra imm => Sys2Proof.Machine.execSubwi rd ra imm s
  | .red rd ra => Sys2Proof.Machine.execRed rd ra s
  | .lls rd ra => Sys2Proof.Machine.execLls rd ra s
  | .ldi rd imm => Sys2Proof.Machine.execLdi rd imm s
  | .ldm rd => Sys2Proof.Machine.execLdm rd s

end Sys2Proof.Machine
end

