-- ==== Sys2Proof/Machine/Window.lean ====
section
/-! DEFINITION. The host window: its map, what a host read returns, what a host write does, how a CMD write executes a
command, which accesses are refused, and the reset input (spec/20_memory.md R60 to R68, spec/70_reset_and_hazards.md
R290). -/

namespace Sys2Proof.Machine

/-- What stands at an 8-byte-aligned window offset (R61). -/
inductive WindowReg where
  | limb (n : LimbName)
  | status
  | cmd
  | modLo
  | modHi
  | reserved
  deriving DecidableEq, Repr

/-- The window map (R61), by the arithmetic of R62. -/
def windowReg (off : Nat) : WindowReg :=
  if off < 0x080 then .limb (.x (BitVec.ofNat 3 (off / 16)) (if off % 16 = 0 then .lo else .hi))
  else if off < 0x100 then
    .limb (.w (BitVec.ofNat 2 ((off - 0x080) / 32)) (BitVec.ofNat 2 ((off - 0x080) % 32 / 8)))
  else if off = 0x100 then .status
  else if off = 0x108 then .cmd
  else if off = 0x110 then .modLo
  else if off = 0x118 then .modHi
  else .reserved

/-- `HostRead(off)`: the value a host read returns (R62). CMD reads 0 (R39), MOD reads M127 always (R38), and a reserved
offset reads 0. -/
def hostRead (off : Nat) (s : State) : Limb :=
  match windowReg off with
  | .limb n => s.readLimb .a n
  | .status => statusWord s.status
  | .cmd => 0
  | .modLo => lo128 Config.m127
  | .modHi => hi128 Config.m127
  | .reserved => 0

/-- A host read changes no state of the block (R62, R68); the run's record is made of a never-written limb (U1). -/
def noteHostRead (off : Nat) (s : State) : State :=
  match windowReg off with
  | .limb n => s.noteLimb n
  | .status => s
  | .cmd => s
  | .modLo => s
  | .modHi => s
  | .reserved => s

/-- `Execute(v)`: a legal value performs its command in full, an illegal one raises IllegalCommand (R67, R262). -/
def execute (v : BitVec 64) (s : State) : Host.Outcome State Fault Refusal :=
  match decode v with
  | .ok i => exec i s
  | .error _ => .next (s.raiseIllegalCommand v)

/-- `HostWrite(off, v)` (R63): a limb, STATUS (write 1 to clear), CMD (execute); MOD and reserved offsets ignore it. -/
def hostWrite (off : Nat) (v : Limb) (s : State) : Host.Outcome State Fault Refusal :=
  match windowReg off with
  | .limb n => .next (s.writeLimb n v)
  | .status => .next (s.clearEvents v)
  | .cmd => execute v s
  | .modLo => .next s
  | .modHi => .next s
  | .reserved => .next s

/-- The accesses the block does not support (R64, U2): a width other than 64 bits, an offset outside the window, a
misaligned offset. -/
def unsupportedAccess (width off : Nat) : Option Refusal :=
  if width ≠ Config.accessBits then some (.accessWidth width)
  else if Config.windowBytes ≤ off then some (.accessOutsideWindow off)
  else if off % 8 ≠ 0 then some (.accessMisaligned off)
  else none

/-- Why an access is refused, if it is: reset is asserted or has not been applied since a loss of power (U3), or the
access is not supported (U2). -/
def accessRefusal (p : Phase) (width off : Nat) : Option Refusal :=
  match p with
  | .running => unsupportedAccess width off
  | .inReset => some .accessDuringReset
  | .awaitingReset => some .accessBeforeReset

/-- Release of the reset input: after an asserted reset the block runs (R290); otherwise nothing changes. -/
def releasedPhase : Phase → Phase
  | .running => .running
  | .inReset => .running
  | .awaitingReset => .awaitingReset

/-- Perform one event of the host or the platform, completely, before the next begins (R67, R69). DESIGN CHOICE
(notes/assumptions/19.md): a loss of power keeps every limb and STATUS. What the block then holds is not specified (R274),
and no access can read it, because reset must come first. -/
def perform (e : HostEvent) (s : State) : Host.Outcome State Fault Refusal :=
  match e with
  | .read width off =>
    match accessRefusal s.phase width off with
    | some r => .refused r
    | none => .next ((noteHostRead off s).pushAnswer (hostRead off s))
  | .write width off v =>
    match accessRefusal s.phase width off with
    | some r => .refused r
    | none => hostWrite off v s
  | .assertReset => .next (s.applyReset.withPhase .inReset)
  | .releaseReset => .next (s.withPhase (releasedPhase s.phase))
  | .resetDuringAccess => .refused .resetDuringAccess
  | .powerLoss => .next (s.withPhase .awaitingReset)

/-- The next event of the host, taken and performed; with none pending the block is idle and nothing changes
(R30, R291). -/
def nextEvent (s : State) : Host.Outcome State Fault Refusal :=
  match s.pending with
  | [] => .next s
  | e :: es => perform e (s.withPending es).nextAccess

/-- The host event that issues a CMD value: a 64-bit write to CMD at window offset 0x108 (R61, R67). -/
def cmdWrite (v : BitVec 64) : HostEvent := .write Config.accessBits 0x108 v

/-- The block running, with one CMD write first in line. -/
def issueNext (v : BitVec 64) (s : State) : State := (s.withPhase .running).withPending (cmdWrite v :: s.pending)

end Sys2Proof.Machine
end

