-- ==== Sys2Proof/Machine/Step.lean ====
section
/-! DEFINITION. One step of the machine: the host's next event, performed (spec/10_state.md R30, spec/20_memory.md R69).
-/

namespace Sys2Proof.Machine

/-- One step: the host's next event, performed in full; idle when there is none (R30, R67, R291). -/
def step (s : State) : Host.Outcome State Fault Refusal := nextEvent s

/-- The state in which the next step executes the command whose word is w: the host's next event is a CMD write of w,
zero-extended to 64 bits, and reset is not asserted (R67, R90; notes/assumptions/5.md). -/
def State.withFetchWord (s : State) (nbits w : Nat) : State := issueNext (BitVec.ofNat 64 (w % 2 ^ nbits)) s

end Sys2Proof.Machine
end

