-- ==== Sys2Proof/Machine/Assembler.lean ====
section
/-! DEFINITION. The assembler syntax and the pseudo-instructions (spec/30_encoding.md R101 to R103). A line is a list of
characters, so that Lean's kernel can assemble one. -/

namespace Sys2Proof.Machine

/-- An operand as it is written (R101). -/
inductive AsmOperand where
  | x (i : BitVec 3)
  | w (j : BitVec 2)
  | limb (i : BitVec 3) (sel : LimbSel)
  | imm (n : Nat)
  deriving DecidableEq, Repr

/-- The field of W register j: its reserved top bit is zero (R94). -/
def wFieldOf (j : BitVec 2) : WField := j.setWidth 3

/-- The immediate, if it lies in [0, 65535] (R101). -/
def immOf (n : Nat) : Option (BitVec 16) := if n ≤ 65535 then some (BitVec.ofNat 16 n) else none

/-- The commands of a mnemonic (in lower case) with its operands: a command of R102 or a pseudo-instruction of R103. A
register of the wrong file or an immediate out of range is rejected. -/
def assemble (mnemonic : List Char) (ops : List AsmOperand) : Option (List Instr) :=
  match mnemonic, ops with
  | ['n', 'o', 'p'], [] => some [.nop]
  | ['a', 'd', 'd'], [.x d, .x a, .x b] => some [.add d a b]
  | ['s', 'u', 'b'], [.x d, .x a, .x b] => some [.sub d a b]
  | ['c', 'm', 'p'], [.x a, .x b] => some [.cmp a b]
  | ['m', 'u', 'l', 'w'], [.x d, .limb a l, .limb b m] => some [.mulw d a b l m]
  | ['s', 'q', 'r'], [.w d, .x a] => some [.sqr (wFieldOf d) a]
  | ['s', 'u', 'b', 'w'], [.w d, .w a, .x b] => some [.subw (wFieldOf d) (wFieldOf a) b]
  | ['s', 'u', 'b', 'w', 'i'], [.w d, .w a, .imm n] =>
    (immOf n).map fun imm => [.subwi (wFieldOf d) (wFieldOf a) imm]
  | ['r', 'e', 'd'], [.x d, .w a] => some [.red d (wFieldOf a)]
  | ['l', 'l', 's'], [.x d, .x a] => some [.lls d a]
  | ['l', 'd', 'i'], [.x d, .imm n] => (immOf n).map fun imm => [.ldi d imm]
  | ['l', 'd', 'm'], [.x d] => some [.ldm d]
  | ['c', 'l', 'r'], [.x d] => some [.ldi d 0]
  | ['d', 'b', 'l'], [.x d, .x a] => some [.add d a a]
  | ['m', 'u', 'l'], [.x d, .x a, .x b] => some [.mulw d a b .lo .lo]
  | ['s', 'u', 'b', '2'], [.w d, .w a] => some [.subwi (wFieldOf d) (wFieldOf a) 2]
  | ['t', 's', 't', 'z'], [.x a, .x t] => if t = a then none else some [.ldi t 0, .cmp a t]
  | _, _ => none

/-! ### Reading a line (R101) -/

/-- White space between the words of a line. -/
def isBlank (c : Char) : Bool := c == ' ' || c == '\t'

/-- Drop blanks at both ends. -/
def trimBlanks (cs : List Char) : List Char := ((cs.dropWhile isBlank).reverse.dropWhile isBlank).reverse

/-- A comment runs from ';' to the end of the line. -/
def withoutComment (cs : List Char) : List Char := cs.takeWhile (fun c => c != ';')

/-- The pieces of a line between its commas. -/
def splitCommas : List Char → List (List Char)
  | [] => [[]]
  | c :: cs =>
    match splitCommas cs with
    | [] => [[c]]
    | p :: ps => if c == ',' then [] :: p :: ps else (c :: p) :: ps

/-- A decimal digit's value. -/
def decDigit (c : Char) : Option Nat := if '0' ≤ c ∧ c ≤ '9' then some (c.toNat - '0'.toNat) else none

/-- A hexadecimal digit's value; letters are in lower case by then. -/
def hexDigit (c : Char) : Option Nat :=
  if 'a' ≤ c ∧ c ≤ 'f' then some (c.toNat - 'a'.toNat + 10) else decDigit c

/-- A number from its digits in a base, most significant first. -/
def numberOf (base : Nat) (digit : Char → Option Nat) (cs : List Char) : Option Nat :=
  cs.foldl (fun acc c => acc.bind fun n => (digit c).map fun d => n * base + d) (some 0)

/-- An immediate: decimal, or hexadecimal after `0x`; at least one digit. -/
def parseNumber (cs : List Char) : Option Nat :=
  match cs with
  | [] => none
  | ['0', 'x'] => none
  | '0' :: 'x' :: ds => numberOf 16 hexDigit ds
  | ds => numberOf 10 decDigit ds

/-- x0 to x7. -/
def xOf (c : Char) : Option (BitVec 3) := (decDigit c).bind fun n => if n < 8 then some (BitVec.ofNat 3 n) else none

/-- w0 to w3. -/
def wOf (c : Char) : Option (BitVec 2) := (decDigit c).bind fun n => if n < 4 then some (BitVec.ofNat 2 n) else none

/-- One operand: a register, a register's limb, or an immediate. -/
def parseOperand (cs : List Char) : Option AsmOperand :=
  match cs with
  | ['x', c] => (xOf c).map .x
  | ['w', c] => (wOf c).map .w
  | ['x', c, '.', 'l', 'o'] => (xOf c).map fun i => .limb i .lo
  | ['x', c, '.', 'h', 'i'] => (xOf c).map fun i => .limb i .hi
  | ds => (parseNumber ds).map .imm

/-- The operands of a line, after its mnemonic. -/
def parseOperands (cs : List Char) : Option (List AsmOperand) :=
  match trimBlanks cs with
  | [] => some []
  | rest => (splitCommas rest).mapM fun piece => parseOperand (trimBlanks piece)

/-- Assemble one line: its commands, none for a blank line or a comment; `none` where the assembler rejects it.
Mnemonics and register names are case-insensitive (R101). DESIGN CHOICE (notes/assumptions/17.md): the whole line is, and
so are the limb suffixes, the prefix 0x and the hexadecimal digits, of whose case R101 says nothing. -/
def assembleLine (line : List Char) : Option (List Instr) :=
  match trimBlanks ((withoutComment line).map Char.toLower) with
  | [] => some []
  | text =>
    (parseOperands (text.dropWhile (fun c => !isBlank c))).bind
      fun ops => assemble (text.takeWhile (fun c => !isBlank c)) ops

end Sys2Proof.Machine
end

