-- ==== Sys2Proof/Machine/Datapath.lean ====
section
/-! DEFINITION. The limb procedures by which the spec describes the datapaths, step by step, and the closed form of the
reducer. The machine computes with Machine/Arith.lean; that each procedure here gives the same value is a claim. -/

namespace Sys2Proof.Machine

/-- The adder: one carry from the low limb's wrap into the high limb (R120). -/
def add128Limbs (a b : Limb128) : Limb128 :=
  let lo := lo128 a + lo128 b
  let c : Limb := if lo.toNat < (lo128 a).toNat then 1 else 0
  join128 (hi128 a + hi128 b + c) lo

/-- The subtractor: one borrow from the low limb into the high limb (R122). -/
def sub128Limbs (a b : Limb128) : Limb128 :=
  let lo := lo128 a - lo128 b
  let bw : Limb := if (lo128 a).toNat < lo.toNat then 1 else 0
  join128 (hi128 a - hi128 b - bw) lo

/-- The multiplier from four 32×32 partial products (R140); its temporaries are unbounded, as R13 says. -/
def mul64Halves (a b : Limb) : Limb128 :=
  let a0 := a.toNat % 2 ^ 32
  let a1 := a.toNat / 2 ^ 32
  let b0 := b.toNat % 2 ^ 32
  let b1 := b.toNat / 2 ^ 32
  let p00 := a0 * b0
  let p01 := a0 * b1
  let p10 := a1 * b0
  let p11 := a1 * b1
  let mid := p00 / 2 ^ 32 + p01 % 2 ^ 32 + p10 % 2 ^ 32
  let lo := p00 % 2 ^ 32 + (mid % 2 ^ 32) * 2 ^ 32
  let hi := p11 + p01 / 2 ^ 32 + p10 / 2 ^ 32 + mid / 2 ^ 32
  join128 (BitVec.ofNat 64 hi) (BitVec.ofNat 64 lo)

/-- The squarer from three partial products, the doubling of the cross term, and the carries at the limb boundaries
(R160). -/
def sqr128Limbs (s : Limb128) : Limb256 :=
  let p := mul64 (lo128 s) (lo128 s)
  let q := mul64 (lo128 s) (hi128 s)
  let r := mul64 (hi128 s) (hi128 s)
  let d0 := lo128 q <<< 1
  let d1 := (hi128 q <<< 1) ||| (lo128 q >>> 63)
  let d2 := hi128 q >>> 63
  let t1 := (hi128 p).toNat + d0.toNat
  let t2 := (lo128 r).toNat + d1.toNat + t1 / 2 ^ 64
  let t3 := (hi128 r).toNat + d2.toNat + t2 / 2 ^ 64
  join256 (BitVec.ofNat 64 t3) (BitVec.ofNat 64 t2) (BitVec.ofNat 64 t1) (lo128 p)

/-- The borrow out of one limb's exact difference (R200). -/
def borrowOf (t : Int) : Int := if t < 0 then 1 else 0

/-- The 256-bit subtractor: the borrow runs through the four limbs, the last one discarded (R200). -/
def subs256Limbs (x : Limb256) (v : Limb) : Limb256 :=
  let t0 : Int := (limb256 x 0).toNat - v.toNat
  let t1 : Int := (limb256 x 1).toNat - borrowOf t0
  let t2 : Int := (limb256 x 2).toNat - borrowOf t1
  let t3 : Int := (limb256 x 3).toNat - borrowOf t2
  join256 (BitVec.ofInt 64 t3) (BitVec.ofInt 64 t2) (BitVec.ofInt 64 t1) (BitVec.ofInt 64 t0)

/-- c(x): 1 if the first fold loses a carry, else 0 (R185). -/
def foldCarry (x : Limb256) : Nat :=
  if 2 ^ 128 ≤ x.toNat % 2 ^ 127 + (x.toNat / 2 ^ 127) % 2 ^ 128 then 1 else 0

/-- x[255] as a number (R185). -/
def bit255 (x : Limb256) : Nat := if x.getLsbD 255 then 1 else 0

/-- The reducer's closed form, a value in [0, M127) (R185). -/
def red127Closed (x : Limb256) : Int :=
  ((x.toNat : Int) - 2 * ((bit255 x : Int) + (foldCarry x : Int))) % (Config.m127.toNat : Int)

end Sys2Proof.Machine
end

