-- ==== Sys2Proof/Machine/Platform.lean ====
section
/-! DEFINITION. A platform around the block: P_INSTANCES independent instances, each at its own P_BASE, and the agents
that access them (spec/00_scope.md R10, spec/10_state.md R46, spec/20_memory.md R60, R69, R70, spec/60_exceptions.md
R271, R272). Both open parameters are arguments: `Platform.atReset bases agents` has one instance per base. -/

namespace Sys2Proof.Machine

/-- One instance: the host address of its window offset 0 (P_BASE, R60) and its own state (R46). -/
structure Instance where
  base : Nat
  core : State
  deriving DecidableEq, Repr

/-- What an agent on the platform's bus does: accesses by host address, and the reset input of instance k. -/
inductive BusEvent where
  | read (width addr : Nat)
  | write (width addr : Nat) (v : Limb)
  | assertReset (k : Nat)
  | releaseReset (k : Nat)
  deriving DecidableEq, Repr

/-- The instances and, for each agent, its accesses to come in program order (R69; their reaching the window in this
order is the platform's part, R70). -/
structure Platform where
  instances : List Instance
  agents : List (List BusEvent)
  deriving DecidableEq, Repr

/-- A platform whose instances have just been reset: P_INSTANCES is the number of bases (R10, R46, R272). Each instance
draws its never-written limbs from a stream of its own, so no two of their reads can be proved equal (U1;
notes/assumptions/18.md). -/
def Platform.atReset (bases : List Nat) (agents : List (List BusEvent)) : Platform :=
  ⟨bases.zipIdx.map (fun b => ⟨b.1, State.reset.withFreeStream b.2⟩), agents⟩

/-- The instance's window holds the host address (R60). -/
def Instance.covers (inst : Instance) (addr : Nat) : Bool :=
  decide (inst.base ≤ addr ∧ addr < inst.base + Config.windowBytes)

/-- Perform an event at instance k; the other instances are not touched (R46). -/
def Platform.deliver (p : Platform) (k : Nat) (e : HostEvent) : Host.Outcome Platform Fault Refusal :=
  match p.instances[k]? with
  | none => .next p
  | some inst =>
    match perform e inst.core.nextAccess with
    | .next c => .next { p with instances := p.instances.set k { inst with core := c } }
    | .fault f => .fault f
    | .refused r => .refused r

/-- The instance an address belongs to. -/
def Platform.route (p : Platform) (addr : Nat) : Option Nat := p.instances.findIdx? (fun inst => inst.covers addr)

/-- The window offset of a host address in instance k: the address less P_BASE (R60). -/
def Platform.offsetIn (p : Platform) (k addr : Nat) : Nat :=
  match p.instances[k]? with
  | none => addr
  | some inst => addr - inst.base

/-- Perform a bus event; an address of no instance's window is outside every block and is refused (R64, U2). -/
def Platform.busEvent (p : Platform) (e : BusEvent) : Host.Outcome Platform Fault Refusal :=
  match e with
  | .read width addr =>
    match p.route addr with
    | none => .refused (.accessOutsideWindow addr)
    | some k => p.deliver k (.read width (p.offsetIn k addr))
  | .write width addr v =>
    match p.route addr with
    | none => .refused (.accessOutsideWindow addr)
    | some k => p.deliver k (.write width (p.offsetIn k addr) v)
  | .assertReset k => p.deliver k .assertReset
  | .releaseReset k => p.deliver k .releaseReset

/-- One step in which the given agent's next access is performed. Which agent is next is left open (R69, U9): a claim
about the platform holds for every choice. -/
def Platform.step (p : Platform) (agent : Nat) : Host.Outcome Platform Fault Refusal :=
  match p.agents[agent]? with
  | some (e :: es) => Platform.busEvent { p with agents := p.agents.set agent es } e
  | some [] => .next p
  | none => .next p

end Sys2Proof.Machine
end

