-- ==== Sys2Proof/Safety.lean ====
section
/-! DEFINITION. What a host must see to, in the terms claims use: limbs written before they are read
(spec/70_reset_and_hazards.md R292), operands in the domain and reducer inputs in the exactness set (R293), the model's
canonical form, and a platform's instances drawing apart. -/

namespace Sys2Proof.Machine

/-- The run has read no never-written limb: it is not faulted (R44, U1). -/
abbrev State.Clean (s : State) : Prop := s.runFault = none

/-- Both limbs of X[i]. -/
def xLimbs (i : XField) : List LimbName := [.x i .lo, .x i .hi]

/-- The four limbs of W[j]. -/
def wLimbs (j : BitVec 2) : List LimbName := [.w j 0, .w j 1, .w j 2, .w j 3]

/-- The limbs a command reads: only those that its rule names (R44, R45). -/
def limbsRead : Instr → List LimbName
  | .nop => []
  | .add _ ra rb => xLimbs ra ++ xLimbs rb
  | .sub _ ra rb => xLimbs ra ++ xLimbs rb
  | .cmp ra rb => xLimbs ra ++ xLimbs rb
  | .mulw _ ra rb sa sb => [selectedLimb ra sa, selectedLimb rb sb]
  | .sqr _ ra => xLimbs ra
  | .subw _ ra rb => wLimbs (wIndex ra) ++ [subwLimb rb]
  | .subwi _ ra _ => wLimbs (wIndex ra)
  | .red _ ra => wLimbs (wIndex ra)
  | .lls _ ra => xLimbs ra
  | .ldi _ _ => []
  | .ldm _ => []

/-- The limbs a command writes (R45). -/
def limbsWritten : Instr → List LimbName
  | .nop => []
  | .add rd _ _ => xLimbs rd
  | .sub rd _ _ => xLimbs rd
  | .cmp _ _ => []
  | .mulw rd _ _ _ _ => xLimbs rd
  | .sqr rd _ => wLimbs (wIndex rd)
  | .subw rd _ _ => wLimbs (wIndex rd)
  | .subwi rd _ _ => wLimbs (wIndex rd)
  | .red rd _ => xLimbs rd
  | .lls rd _ => xLimbs rd
  | .ldi rd _ => xLimbs rd
  | .ldm rd => xLimbs rd

/-- The X register a command writes, if it writes one (R45). -/
def xDest : Instr → Option XField
  | .nop => none
  | .add rd _ _ => some rd
  | .sub rd _ _ => some rd
  | .cmp _ _ => none
  | .mulw rd _ _ _ _ => some rd
  | .sqr _ _ => none
  | .subw _ _ _ => none
  | .subwi _ _ _ => none
  | .red rd _ => some rd
  | .lls rd _ => some rd
  | .ldi rd _ => some rd
  | .ldm rd => some rd

/-- The W register a command writes, if it writes one (R45). -/
def wDest : Instr → Option (BitVec 2)
  | .nop => none
  | .add _ _ _ => none
  | .sub _ _ _ => none
  | .cmp _ _ => none
  | .mulw _ _ _ _ _ => none
  | .sqr rd _ => some (wIndex rd)
  | .subw rd _ _ => some (wIndex rd)
  | .subwi rd _ _ => some (wIndex rd)
  | .red _ _ => none
  | .lls _ _ => none
  | .ldi _ _ => none
  | .ldm _ => none

/-- The command is an LLS, the one command that can set DOM (R40). -/
def isLls : Instr → Bool
  | .lls _ _ => true
  | .nop => false
  | .add _ _ _ => false
  | .sub _ _ _ => false
  | .cmp _ _ => false
  | .mulw _ _ _ _ _ => false
  | .sqr _ _ => false
  | .subw _ _ _ => false
  | .subwi _ _ _ => false
  | .red _ _ => false
  | .ldi _ _ => false
  | .ldm _ => false

/-- Every limb but those in the list keeps its value and its written mark. -/
abbrev SameLimbsBut (ns : List LimbName) (s t : State) : Prop := ∀ n : LimbName, n ∉ ns → t.cell n = s.cell n

/-- Every window offset but those of the limbs in the list, and but STATUS, reads as it did (R61, R62). -/
abbrev SameWindowBut (ns : List LimbName) (s t : State) : Prop :=
  ∀ off : Nat, (∀ n ∈ ns, windowReg off ≠ .limb n) → windowReg off ≠ .status → hostRead off t = hostRead off s

/-- The host's side, reset, power, the access count and the stream of free values are as they were. -/
abbrev SameOutside (s t : State) : Prop :=
  t.phase = s.phase ∧ t.pending = s.pending ∧ t.answers = s.answers ∧ t.accessNo = s.accessNo ∧
  t.freeStream = s.freeStream

/-- The record of the run after the limbs in the list have been read, in order: the first never-written one, unless the
run was faulted before (U1). -/
def recordAfter (s : State) (ns : List LimbName) : Option Fault :=
  match s.runFault with
  | some f => some f
  | none => (ns.find? (fun n => !s.isWritten n)).map .readBeforeWrite

/-- Every limb in the list has been written since reset. -/
def State.allWritten (s : State) (ns : List LimbName) : Bool := ns.all s.isWritten

/-- The host has made every limb that the command reads written since reset (R292). -/
abbrev State.ReadyFor (s : State) (i : Instr) : Prop := s.allWritten (limbsRead i) = true

/-- The operand is in the domain of the step, 0 ≤ s < M127 (R293). -/
abbrev InDomain (v : Limb128) : Prop := v.toNat < 2 ^ 127 - 1

/-- The canonical form of the register files: a never-written limb holds the placeholder 0, so that two machines with
the same written limbs are equal data. -/
abbrev State.Canonical (s : State) : Prop := ∀ n : LimbName, s.isWritten n = false → (s.cell n).value = 0

/-- No two instances of the platform draw from one stream of free values, so that nothing can be proved of the
never-written limbs of one from those of another (R272, U1; notes/assumptions/18.md). -/
abbrev Platform.Independent (p : Platform) : Prop :=
  ∀ (j k : Nat) (a b : Instance), p.instances[j]? = some a → p.instances[k]? = some b →
    a.core.freeStream = b.core.freeStream → j = k

end Sys2Proof.Machine
end

