-- ==== Sys2Proof/Certificates/Slice0/Obligations.lean ====
section
/-! DEFINITION. The statements about the LL127 core, from the numbered rules of spec/. -/

open Sys2Proof Sys2Proof.Machine

/-! ## Command words (spec/30_encoding.md) -/

/-- Decoding the CMD value of a well-formed command gives the command back, at every value of every operand
(R97, R98, R102). -/
def Obligations.DecodeEncodeRoundTrip : Prop :=
  ∀ i : Instr, i.WellFormed → decode (encode i) = .ok i

/-- A legal CMD value decodes to a well-formed command, and it is that command's own encoding: each legal value has one
meaning and no two legal values have the same (R97, R98, R102). -/
def Obligations.LegalValueIsItsEncoding : Prop :=
  ∀ (v : BitVec 64) (i : Instr), decode v = .ok i → i.WellFormed ∧ encode i = v

/-- R90, R97, R98: a CMD value decodes to a command iff its high half is zero and its low half matches a row, with the
map's own numbers, and the command is then the row's, with its fields; at most one row can match. -/
def Obligations.LegalIffOneRowMatches : Prop :=
  let xd : CmdWord → BitVec 3 := fun w => w.extractLsb' 25 3
  let xa : CmdWord → BitVec 3 := fun w => w.extractLsb' 22 3
  let xb : CmdWord → BitVec 3 := fun w => w.extractLsb' 19 3
  let imm : CmdWord → BitVec 16 := fun w => w.extractLsb' 0 16
  let limb : CmdWord → Nat → LimbSel := fun w k => if w.getLsbD k then .hi else .lo
  let rows : List (CmdWord × CmdWord × (CmdWord → Instr)) :=
    [(0x00000000, 0xFFFFFFFF, fun _ => .nop),
     (0x10000000, 0xF007FFFF, fun w => .add (xd w) (xa w) (xb w)),
     (0x20000000, 0xF007FFFF, fun w => .sub (xd w) (xa w) (xb w)),
     (0x30000000, 0xFE07FFFF, fun w => .cmp (xa w) (xb w)),
     (0x40000000, 0xF001FFFF, fun w => .mulw (xd w) (xa w) (xb w) (limb w 18) (limb w 17)),
     (0x50000000, 0xF83FFFFF, fun w => .sqr (xd w) (xa w)),
     (0x60000000, 0xF907FFFF, fun w => .subw (xd w) (xa w) (xb w)),
     (0x70000000, 0xF93F0000, fun w => .subwi (xd w) (xa w) (imm w)),
     (0x80000000, 0xF13FFFFF, fun w => .red (xd w) (xa w)),
     (0x90000000, 0xF03FFFFF, fun w => .lls (xd w) (xa w)),
     (0xA0000000, 0xF1FF0000, fun w => .ldi (xd w) (imm w)),
     (0xB0000000, 0xF1FFFFFF, fun w => .ldm (xd w))]
  (∀ (v : BitVec 64) (i : Instr),
    decode v = .ok i ↔
      v.extractLsb' 32 32 = 0 ∧
        ∃ r ∈ rows, v.extractLsb' 0 32 &&& r.2.1 = r.1 ∧ i = r.2.2 (v.extractLsb' 0 32)) ∧
  ∀ (w : CmdWord), ∀ r ∈ rows, ∀ q ∈ rows, w &&& r.2.1 = r.1 → w &&& q.2.1 = q.1 → r.1 = q.1

/-- R99: each listed case is illegal; executing it sets ILL and does nothing else. The reserved-zero bits of each row
are written out from R97. -/
def Obligations.ListedCasesAreIllegal : Prop :=
  let reserved : List (Nat × CmdWord) :=
    [(0x0, 0x0FFFFFFF), (0x1, 0x0007FFFF), (0x2, 0x0007FFFF), (0x3, 0x0E07FFFF), (0x4, 0x0001FFFF), (0x5, 0x083FFFFF),
     (0x6, 0x0907FFFF), (0x7, 0x093F0000), (0x8, 0x013FFFFF), (0x9, 0x003FFFFF), (0xA, 0x01FF0000), (0xB, 0x01FFFFFF)]
  ∀ v : BitVec 64,
    let w : CmdWord := v.extractLsb' 0 32
    let op := (v.extractLsb' 28 4).toNat
    let rd := (v.extractLsb' 25 3).toNat
    let ra := (v.extractLsb' 22 3).toNat
    let rb := (v.extractLsb' 19 3).toNat
    (v.toNat / 2 ^ 32 ≠ 0 ∨
      12 ≤ op ∨
      (∃ r ∈ reserved, op = r.1 ∧ w &&& r.2 ≠ 0) ∨
      ((op = 5 ∨ op = 6 ∨ op = 7) ∧ 4 ≤ rd) ∨
      ((op = 6 ∨ op = 7 ∨ op = 8) ∧ 4 ≤ ra) ∨
      (op = 3 ∧ rd ≠ 0) ∨
      ((op = 10 ∨ op = 11) ∧ (ra ≠ 0 ∨ rb ≠ 0)) ∨
      ((op = 5 ∨ op = 8 ∨ op = 9) ∧ rb ≠ 0) ∨
      (op = 0 ∧ w ≠ 0)) →
    (∃ why, decode v = .error why) ∧
    ∀ s : State, execute v s = .next (s.withStatus { s.status with ill := true })

/-- R240: NOP is the all-zero word and no other CMD value, and it changes no state. -/
def Obligations.NopIsTheZeroWordAndChangesNothing : Prop :=
  (∀ v : BitVec 64, decode v = .ok .nop ↔ v = 0) ∧ ∀ s : State, exec .nop s = .next s

/-- R104: the spec's encoding examples, in both directions. -/
def Obligations.SpecEncodingExamples : Prop :=
  let examples : List (Instr × BitVec 64) :=
    [(.nop, 0x00000000), (.add 2 1 1, 0x14480000), (.sub 3 1 2, 0x26500000), (.cmp 2 3, 0x30980000),
     (.mulw 2 1 1 .lo .lo, 0x44480000), (.mulw 3 1 2 .hi .lo, 0x46540000), (.sqr 0 1, 0x50400000),
     (.subw 1 0 4, 0x62200000), (.subwi 0 0 2, 0x70000002), (.red 2 0, 0x84000000), (.lls 0 0, 0x90000000),
     (.lls 3 1, 0x96400000), (.ldi 0 4, 0xA0000004), (.ldi 1 0, 0xA2000000), (.ldm 5, 0xBA000000)]
  ∀ e ∈ examples, encode e.1 = e.2 ∧ decode e.2 = .ok e.1

/-- R103: the pseudo-instruction tstz assembles to `ldi xt, 0` then `cmp xa, xt`, and running the two sets STATUS.CMP
to EQUAL iff X[a] was 0 and leaves X[t] at 0; with xt = xa it is rejected. -/
def Obligations.PseudoTstzTestsForZero : Prop :=
  ∀ a t : BitVec 3,
    (t = a → assemble ['t', 's', 't', 'z'] [.x a, .x t] = none) ∧
    (t ≠ a → assemble ['t', 's', 't', 'z'] [.x a, .x t] = some [.ldi t 0, .cmp a t] ∧
      ∀ s : State, ∃ s₁ s₂, exec (.ldi t 0) s = .next s₁ ∧ exec (.cmp a t) s₁ = .next s₂ ∧
        (s₂.status.cmp = .equal ↔ s.readX .a a = 0) ∧ s₂.readX .a t = 0)

/-! ## What each command does: it completes in every state, with this result -/

/-- R121. -/
def Obligations.AddWritesSumModulo : Prop :=
  ∀ rd ra rb : XField,
    encodeWord (.add rd ra rb) &&& 0xF007FFFF#32 = 0x10000000#32 ∧
    ∀ s : State, ∃ t, exec (.add rd ra rb) s = .next t ∧ t.status = s.status ∧
      ∀ p, (t.readX p rd).toNat = ((s.readX .a ra).toNat + (s.readX .b rb).toNat) % 2 ^ 128

/-- R123. -/
def Obligations.SubWritesDifferenceModulo : Prop :=
  ∀ rd ra rb : XField,
    encodeWord (.sub rd ra rb) &&& 0xF007FFFF#32 = 0x20000000#32 ∧
    ∀ s : State, ∃ t, exec (.sub rd ra rb) s = .next t ∧ t.status = s.status ∧
      ∀ p, ((t.readX p rd).toNat : Int) = (((s.readX .a ra).toNat : Int) - (s.readX .b rb).toNat) % 2 ^ 128

/-- R125: CMP writes 0b01, 0b10 or 0b11 by the unsigned order, in STATUS.CMP alone, where the host reads it in bits
1:0. -/
def Obligations.CmpWritesCompareResult : Prop :=
  ∀ ra rb : XField,
    encodeWord (.cmp ra rb) &&& 0xFE07FFFF#32 = 0x30000000#32 ∧
    ∀ s : State, ∃ t, exec (.cmp ra rb) s = .next t ∧
      t.status.dom = s.status.dom ∧ t.status.ill = s.status.ill ∧
      t.status.cmp.bits =
        (if (s.readX .a ra).toNat < (s.readX .b rb).toNat then 0b01#2
          else if (s.readX .a ra).toNat = (s.readX .b rb).toNat then 0b10#2 else 0b11#2) ∧
      (hostRead 0x100 t).extractLsb' 0 2 = t.status.cmp.bits

/-- R141: the exact product of the two selected limbs, the only ones read: the unselected limbs may be never-written
without fault. -/
def Obligations.MulwWritesExactProduct : Prop :=
  ∀ (rd ra rb : XField) (sa sb : LimbSel),
    encodeWord (.mulw rd ra rb sa sb) &&& 0xF001FFFF#32 = 0x40000000#32 ∧
    ∀ s : State, ∃ t, exec (.mulw rd ra rb sa sb) s = .next t ∧ t.status = s.status ∧
      (s.isWritten (.x ra sa) = true → s.isWritten (.x rb sb) = true → t.runFault = s.runFault) ∧
      ∀ p, (t.readX p rd).toNat = (s.readLimb .a (.x ra sa)).toNat * (s.readLimb .b (.x rb sb)).toNat

/-- R161: the exact square, in W[RD[1:0]]. -/
def Obligations.SqrWritesExactSquare : Prop :=
  ∀ (rd : WField) (ra : XField),
    ((Instr.sqr rd ra).WellFormed → encodeWord (.sqr rd ra) &&& 0xF83FFFFF#32 = 0x50000000#32) ∧
    (¬ (Instr.sqr rd ra).WellFormed → ∃ why, decode (encode (.sqr rd ra)) = .error why) ∧
    ∀ s : State, ∃ t, exec (.sqr rd ra) s = .next t ∧ t.status = s.status ∧
      ∀ p, (t.readW p (rd.extractLsb' 0 2)).toNat = (s.readX .a ra).toNat * (s.readX .a ra).toNat

/-- R201: W[RA[1:0]] less X[RB].lo, modulo 2^256; X[RB].hi is not read and may be never-written without fault. -/
def Obligations.SubwWritesDifferenceModulo : Prop :=
  ∀ (rd ra : WField) (rb : XField),
    ((Instr.subw rd ra rb).WellFormed → encodeWord (.subw rd ra rb) &&& 0xF907FFFF#32 = 0x60000000#32) ∧
    (¬ (Instr.subw rd ra rb).WellFormed → ∃ why, decode (encode (.subw rd ra rb)) = .error why) ∧
    ∀ s : State, ∃ t, exec (.subw rd ra rb) s = .next t ∧ t.status = s.status ∧
      (s.allWritten (wLimbs (ra.extractLsb' 0 2)) = true → s.isWritten (.x rb .lo) = true → t.runFault = s.runFault) ∧
      ∀ p, ((t.readW p (rd.extractLsb' 0 2)).toNat : Int)
        = (((s.readW .a (ra.extractLsb' 0 2)).toNat : Int) - (s.readLimb .b (.x rb .lo)).toNat) % 2 ^ 256

/-- R203: W[RA[1:0]] less the zero-extended immediate, modulo 2^256. -/
def Obligations.SubwiWritesDifferenceModulo : Prop :=
  ∀ (rd ra : WField) (imm : BitVec 16),
    ((Instr.subwi rd ra imm).WellFormed → encodeWord (.subwi rd ra imm) &&& 0xF93F0000#32 = 0x70000000#32) ∧
    (¬ (Instr.subwi rd ra imm).WellFormed → ∃ why, decode (encode (.subwi rd ra imm)) = .error why) ∧
    ∀ s : State, ∃ t, exec (.subwi rd ra imm) s = .next t ∧ t.status = s.status ∧
      ∀ p, ((t.readW p (rd.extractLsb' 0 2)).toNat : Int)
        = (((s.readW .a (ra.extractLsb' 0 2)).toNat : Int) - imm.toNat) % 2 ^ 256

/-- R184: the reducer's value; no flag reports an inexact input. -/
def Obligations.RedWritesReducedValue : Prop :=
  ∀ (rd : XField) (ra : WField),
    ((Instr.red rd ra).WellFormed → encodeWord (.red rd ra) &&& 0xF13FFFFF#32 = 0x80000000#32) ∧
    (¬ (Instr.red rd ra).WellFormed → ∃ why, decode (encode (.red rd ra)) = .error why) ∧
    ∀ s : State, ∃ t, exec (.red rd ra) s = .next t ∧ t.status = s.status ∧
      ∀ p, t.readX p rd = red127 (s.readW .a (ra.extractLsb' 0 2))

/-- R221: LLS writes llstep(X[RA]) in any case; DOM is set iff it was set or the operand is M127 or more; CMP and ILL
are unchanged; no W register is written, and none is read: with both limbs of X[RA] written the run records no fault. -/
def Obligations.LlsWritesStepAndReportsDomain : Prop :=
  ∀ rd ra : XField,
    encodeWord (.lls rd ra) &&& 0xF03FFFFF#32 = 0x90000000#32 ∧
    ∀ s : State, ∃ t, exec (.lls rd ra) s = .next t ∧
      (∀ p, t.readX p rd = llstep (s.readX .a ra)) ∧
      t.status.cmp = s.status.cmp ∧ t.status.ill = s.status.ill ∧
      t.w = s.w ∧ (s.allWritten (xLimbs ra) = true → t.runFault = s.runFault) ∧
      (t.status.dom = true ↔ s.status.dom = true ∨ 2 ^ 127 - 1 ≤ (s.readX .a ra).toNat)

/-- R242: X[RD].lo is IMM16, zero-extended, and X[RD].hi is 0. -/
def Obligations.LdiLoadsImmediate : Prop :=
  ∀ (rd : XField) (imm : BitVec 16),
    encodeWord (.ldi rd imm) &&& 0xF1FF0000#32 = 0xA0000000#32 ∧
    ∀ s : State, ∃ t, exec (.ldi rd imm) s = .next t ∧ t.status = s.status ∧
      ∀ p, (t.readLimb p (.x rd .lo)).toNat = imm.toNat ∧ t.readLimb p (.x rd .hi) = 0

/-- R244: X[RD] is M127; MOD still reads M127 after it. -/
def Obligations.LdmLoadsModulus : Prop :=
  ∀ rd : XField,
    encodeWord (.ldm rd) &&& 0xF1FFFFFF#32 = 0xB0000000#32 ∧
    ∀ s : State, ∃ t, exec (.ldm rd) s = .next t ∧ t.status = s.status ∧
      (∀ p, t.readLimb p (.x rd .lo) = 0xFFFFFFFFFFFFFFFF#64 ∧ t.readLimb p (.x rd .hi) = 0x7FFFFFFFFFFFFFFF#64) ∧
      hostRead 0x110 t = 0xFFFFFFFFFFFFFFFF#64 ∧ hostRead 0x118 t = 0x7FFFFFFFFFFFFFFF#64

/-! ## Frames: what each command leaves unchanged (R45) -/

/-- ADD, SUB, MULW, RED, LLS, LDI and LDM, with destination X[d]: every other limb of the X file, the W file, STATUS
(but DOM for LLS) and the outside are unchanged, and every window offset but X[d]'s two and STATUS reads as before. -/
def Obligations.XCommandFrame : Prop :=
  ∀ (i : Instr) (d : XField), xDest i = some d → ∀ s t : State, exec i s = .next t →
    SameLimbsBut [.x d .lo, .x d .hi] s t ∧ t.w = s.w ∧
    t.status.cmp = s.status.cmp ∧ t.status.ill = s.status.ill ∧ (isLls i = false → t.status.dom = s.status.dom) ∧
    SameOutside s t ∧ SameWindowBut [.x d .lo, .x d .hi] s t

/-- SQR, SUBW and SUBWI, with destination W[d]: every other limb, the X file, STATUS and the outside are unchanged, and
every window offset but W[d]'s four reads as before, STATUS among them. -/
def Obligations.WCommandFrame : Prop :=
  ∀ (i : Instr) (d : BitVec 2), wDest i = some d → ∀ s t : State, exec i s = .next t →
    SameLimbsBut [.w d 0, .w d 1, .w d 2, .w d 3] s t ∧ t.x = s.x ∧ t.status = s.status ∧
    SameOutside s t ∧ SameWindowBut [.w d 0, .w d 1, .w d 2, .w d 3] s t ∧ hostRead 0x100 t = hostRead 0x100 s

/-- CMP writes no register: both register files and the outside are unchanged, DOM and ILL too, and every window offset
but STATUS reads as before. -/
def Obligations.CmpFrame : Prop :=
  ∀ (ra rb : XField) (s t : State), exec (.cmp ra rb) s = .next t →
    t.x = s.x ∧ t.w = s.w ∧ t.status.dom = s.status.dom ∧ t.status.ill = s.status.ill ∧
    SameOutside s t ∧ SameWindowBut [] s t

/-- The run's record (U1): a command records the first never-written limb among those its rule names, in order, unless
the run was faulted before. A command that reads only written limbs records nothing (R44, R292). -/
def Obligations.CommandRecordsReadBeforeWrite : Prop :=
  ∀ (i : Instr) (s t : State), exec i s = .next t → t.runFault = recordAfter s (limbsRead i)

/-! ## The arithmetic (spec/41 to spec/46) -/

/-- R120: the sum modulo 2^128, the limb procedure that gives it, and the two readings of the wrap test. -/
def Obligations.AdderIsSumModulo : Prop :=
  ∀ a b : Limb128,
    (add128 a b).toNat = (a.toNat + b.toNat) % 2 ^ 128 ∧ add128Limbs a b = add128 a b ∧
    ((lo128 a + lo128 b).toNat < (lo128 a).toNat ↔ (lo128 a + lo128 b).toNat < (lo128 b).toNat) ∧
    ((lo128 a + lo128 b).toNat < (lo128 a).toNat ↔ 2 ^ 64 ≤ (lo128 a).toNat + (lo128 b).toNat)

/-- R122: the difference modulo 2^128, the limb procedure that gives it, and the borrow test. -/
def Obligations.SubtractorIsDifferenceModulo : Prop :=
  ∀ a b : Limb128,
    ((sub128 a b).toNat : Int) = ((a.toNat : Int) - b.toNat) % 2 ^ 128 ∧ sub128Limbs a b = sub128 a b ∧
    ((lo128 a).toNat < (lo128 a - lo128 b).toNat ↔ (lo128 a).toNat < (lo128 b).toNat)

/-- R124: high limbs first, then low limbs, is the total order of the 128-bit values. -/
def Obligations.ComparatorIsUnsignedOrder : Prop :=
  ∀ a b : Limb128,
    (cmp128 a b = .less ↔ a.toNat < b.toNat) ∧ (cmp128 a b = .equal ↔ a = b) ∧
    (cmp128 a b = .greater ↔ b.toNat < a.toNat)

/-- R126: the laws of the ALU, and where each operation wraps, which no command records. -/
def Obligations.AluLaws : Prop :=
  (∀ a b : Limb128,
    sub128 (add128 a b) b = a ∧ add128 a b = add128 b a ∧
    (cmp128 a b = .equal ↔ sub128 a b = 0) ∧ (cmp128 a b = .less ↔ cmp128 b a = .greater) ∧
    (2 ^ 128 ≤ a.toNat + b.toNat ↔ cmp128 (add128 a b) a = .less) ∧ (a.toNat < b.toNat ↔ cmp128 a b = .less)) ∧
  ∀ (rd ra rb : XField) (s t : State),
    exec (.add rd ra rb) s = .next t ∨ exec (.sub rd ra rb) s = .next t → t.status = s.status

/-- R140: the product is exact, within its bound, and the partial-product procedure gives it. -/
def Obligations.MultiplierIsExact : Prop :=
  ∀ a b : Limb,
    (mul64 a b).toNat = a.toNat * b.toNat ∧ (mul64 a b).toNat ≤ 2 ^ 128 - 2 ^ 65 + 1 ∧ mul64Halves a b = mul64 a b

/-- R142: the product commutes and stays below 2^128; a square from the products of its limbs. -/
def Obligations.MultiplierLaws : Prop :=
  (∀ a b : Limb, mul64 a b = mul64 b a ∧ (mul64 a b).toNat < 2 ^ 128) ∧
  ∀ s : Limb128,
    s.toNat * s.toNat = (mul64 (hi128 s) (hi128 s)).toNat * 2 ^ 128 + 2 * (mul64 (lo128 s) (hi128 s)).toNat * 2 ^ 64
      + (mul64 (lo128 s) (lo128 s)).toNat

/-- R160: the square is exact for every 128-bit input, and the limb procedure, with its doubling and its carries, gives
it; no carry leaves limb 3. -/
def Obligations.SquarerIsExact : Prop :=
  ∀ s : Limb128,
    (sqr128 s).toNat = s.toNat * s.toNat ∧ s.toNat * s.toNat < 2 ^ 256 ∧ sqr128Limbs s = sqr128 s

/-- R162: the bounds of the square. -/
def Obligations.SquareBounds : Prop :=
  ∀ s : Limb128,
    (s.toNat < 2 ^ 127 - 1 → (sqr128 s).toNat ≤ 2 ^ 254 - 2 ^ 129 + 4 ∧ (sqr128 s).toNat < 2 ^ 254) ∧
    (sqr128 s).toNat < 2 ^ 256

/-- R180, R181: the split at bit 127, bit 255 being no part of the high half, and the first fold, which adds the halves
and discards the carry out of bit 127 of the sum. -/
def Obligations.SplitAndFirstFold : Prop :=
  ∀ x : Limb256,
    (splitLow x).toNat = x.toNat % 2 ^ 127 ∧ (splitHigh x).toNat = (x.toNat / 2 ^ 127) % 2 ^ 128 ∧
    (firstFold x).toNat = (x.toNat % 2 ^ 127 + (x.toNat / 2 ^ 127) % 2 ^ 128) % 2 ^ 128

/-- R182: the second fold clears bit 127 and adds 1 where it is set, and gives at most 2^127, which it reaches only from
a cleared value of 2^127 - 1. -/
def Obligations.SecondFoldValue : Prop :=
  ∀ r : Limb128,
    (2 ^ 127 ≤ r.toNat → (secondFold r).toNat = r.toNat - 2 ^ 127 + 1) ∧
    (r.toNat < 2 ^ 127 → secondFold r = r) ∧
    (secondFold r).toNat ≤ 2 ^ 127 ∧
    ((secondFold r).toNat = 2 ^ 127 → r.toNat = 2 ^ 127 + (2 ^ 127 - 1))

/-- R183: for every 256-bit input the reducer's result is below M127; the last stage subtracts M127 once unless its
input is below it. -/
def Obligations.ReducerRange : Prop :=
  (∀ r : Limb128, r.toNat < 2 ^ 127 - 1 → normalise127 r = r) ∧
  (∀ r : Limb128, 2 ^ 127 - 1 ≤ r.toNat → (normalise127 r).toNat = r.toNat - (2 ^ 127 - 1)) ∧
  ∀ x : Limb256, (red127 x).toNat < 2 ^ 127 - 1

/-- R185: the reducer's closed form, for every 256-bit input. -/
def Obligations.ReducerClosedForm : Prop :=
  ∀ x : Limb256,
    ((red127 x).toNat : Int)
      = ((x.toNat : Int) - 2 * ((if x.getLsbD 255 then 1 else 0)
          + (if 2 ^ 128 ≤ x.toNat % 2 ^ 127 + (x.toNat / 2 ^ 127) % 2 ^ 128 then 1 else 0))) % (2 ^ 127 - 1)

/-- R186: the reducer computes x mod M127 exactly where bit 255 is clear and the first fold does not carry, and so for
every x below 2^254, among them the inputs the step gives it for 2 ≤ s < M127; elsewhere the result is x mod M127 less 2
or 4, modulo M127. -/
def Obligations.ReducerExactness : Prop :=
  (∀ x : Limb256,
    (red127 x).toNat = x.toNat % (2 ^ 127 - 1) ↔
      x.getLsbD 255 = false ∧ x.toNat % 2 ^ 127 + (x.toNat / 2 ^ 127) % 2 ^ 128 < 2 ^ 128) ∧
  (∀ x : Limb256, x.getLsbD 255 = true ∨ 2 ^ 128 ≤ x.toNat % 2 ^ 127 + (x.toNat / 2 ^ 127) % 2 ^ 128 →
    ((red127 x).toNat : Int) = ((x.toNat : Int) % (2 ^ 127 - 1) - 2) % (2 ^ 127 - 1) ∨
    ((red127 x).toNat : Int) = ((x.toNat : Int) % (2 ^ 127 - 1) - 4) % (2 ^ 127 - 1)) ∧
  (∀ x : Limb256, x.toNat < 2 ^ 254 → (red127 x).toNat = x.toNat % (2 ^ 127 - 1)) ∧
  ∀ s : Limb128, 2 ≤ s.toNat → s.toNat < 2 ^ 127 - 1 →
    (red127 (subs256 (sqr128 s) 2)).toNat = (s.toNat * s.toNat - 2) % (2 ^ 127 - 1)

/-- R200: the difference modulo 2^256, and the borrow chain through the four limbs that gives it. -/
def Obligations.WideSubtractorIsDifferenceModulo : Prop :=
  ∀ (x : Limb256) (v : Limb),
    ((subs256 x v).toNat : Int) = ((x.toNat : Int) - v.toNat) % 2 ^ 256 ∧ subs256Limbs x v = subs256 x v

/-- R204: exact when x ≥ v, wrapping when x < v; and the step's subtraction wraps only at s = 0 and s = 1. -/
def Obligations.WideSubtractorLaws : Prop :=
  (∀ (x : Limb256) (v : Limb),
    (v.toNat ≤ x.toNat → (subs256 x v).toNat = x.toNat - v.toNat) ∧
    (x.toNat < v.toNat → (subs256 x v).toNat = 2 ^ 256 + x.toNat - v.toNat)) ∧
  ∀ s : Limb128, 2 ≤ (sqr128 s).toNat ↔ 2 ≤ s.toNat

/-- R222: on the whole domain 0 ≤ s < M127, s = 0 and s = 1 among it, an LLS completes and gives X[RD] the recurrence
value (s² - 2) mod M127, the least non-negative residue of the exact integer, and does not set DOM. -/
def Obligations.LlsComputesRecurrence : Prop :=
  ∀ (rd ra : XField) (s : State), (s.readX .a ra).toNat < 2 ^ 127 - 1 →
    ∃ t, exec (.lls rd ra) s = .next t ∧ t.status = s.status ∧ ∀ p,
      ((t.readX p rd).toNat : Int) = (((s.readX .a ra).toNat : Int) ^ 2 - 2) % (2 ^ 127 - 1) ∧
      (t.readX p rd).toNat < 2 ^ 127 - 1

/-- R223: outside the domain an LLS still completes: X[RD] receives llstep(s), below M127, and DOM is 1; the spec's
three values, the first two of them the recurrence value and the last not. -/
def Obligations.LlsOutsideDomain : Prop :=
  (∀ (rd ra : XField) (s : State), 2 ^ 127 - 1 ≤ (s.readX .a ra).toNat →
    ∃ t, exec (.lls rd ra) s = .next t ∧ t.status = { s.status with dom := true } ∧ ∀ p,
      t.readX p rd = llstep (s.readX .a ra) ∧ (t.readX p rd).toNat < 2 ^ 127 - 1) ∧
  llstep 0x7FFFFFFFFFFFFFFFFFFFFFFFFFFFFFFF#128 = 0x7FFFFFFFFFFFFFFFFFFFFFFFFFFFFFFD#128 ∧
  llstep 0x80000000000000000000000000000000#128 = 0x7FFFFFFFFFFFFFFFFFFFFFFFFFFFFFFE#128 ∧
  llstep 0xFFFFFFFFFFFFFFFFFFFFFFFFFFFFFFFF#128 = 0x7FFFFFFFFFFFFFFFFFFFFFFFFFFFFFFA#128 ∧
  ((llstep 0x7FFFFFFFFFFFFFFFFFFFFFFFFFFFFFFF#128).toNat : Int) = ((2 ^ 127 - 1) ^ 2 - 2) % (2 ^ 127 - 1) ∧
  ((llstep 0x80000000000000000000000000000000#128).toNat : Int) = ((2 ^ 127) ^ 2 - 2) % (2 ^ 127 - 1) ∧
  ((2 ^ 128 - 1) ^ 2 - 2) % (2 ^ 127 - 1) = (2 ^ 127 - 2 : Int) ∧
  ((llstep 0xFFFFFFFFFFFFFFFFFFFFFFFFFFFFFFFF#128).toNat : Int) ≠ ((2 ^ 128 - 1) ^ 2 - 2) % (2 ^ 127 - 1)

/-- R224: LLS is a pure function of X[RA]: in any two states where the operands are equal, the results are equal. -/
def Obligations.LlsIsPure : Prop :=
  ∀ (rd₁ ra₁ rd₂ ra₂ : XField) (s₁ s₂ t₁ t₂ : State),
    s₁.readX .a ra₁ = s₂.readX .a ra₂ →
    exec (.lls rd₁ ra₁) s₁ = .next t₁ → exec (.lls rd₂ ra₂) s₂ = .next t₂ →
    ∀ p, t₁.readX p rd₁ = t₂.readX p rd₂

/-- R220: SQR, then SUBWI 2, then RED through a W register complete in every state, and so does one LLS, which writes no
W register (R42). Where both limbs of X[RA] are written (R292), the three give what the one gives, and neither way records
a fault. Of a never-written operand nothing is claimed: two reads of it need not agree (U1). -/
def Obligations.ExplicitPipelineEqualsLls : Prop :=
  ∀ (rd ra : XField) (w : WField) (s : State),
    ∃ s₁ s₂ s₃ t, exec (.sqr w ra) s = .next s₁ ∧ exec (.subwi w w 2) s₁ = .next s₂ ∧ exec (.red rd w) s₂ = .next s₃ ∧
      exec (.lls rd ra) s = .next t ∧ t.w = s.w ∧
      (s.ReadyFor (.lls rd ra) →
        s₃.runFault = s.runFault ∧ t.runFault = s.runFault ∧ ∀ p, s₃.readX p rd = t.readX p rd)

/-! ## The host window and the step (spec/20_memory.md, spec/60_exceptions.md, spec/70_reset_and_hazards.md)

In these statements 'the host's next event is e' (s.pending = e :: es) is how the model says that the host performs the
access e (R62, R63, R69; notes/assumptions/4.md), and 'the block is running' (s.phase = .running) that reset is not
asserted and has been applied since the power came (R290, R274; notes/assumptions/7.md). -/

/-- A STEP RUNS THE DECODED COMMAND (R67): when the host's next event is a 64-bit write of v to CMD and v decodes to i,
the step is exec of i, on the state with the event taken and counted. -/
def Obligations.StepRunsDecodedCommand : Prop :=
  ∀ (s : State) (v : BitVec 64) (es : List HostEvent) (i : Instr),
    s.phase = .running → s.pending = .write 64 0x108 v :: es → decode v = .ok i →
    step s = exec i { s with pending := es, accessNo := s.accessNo + 1 }

/-- R262: a CMD write of an illegal value completes; it sets STATUS.ILL to 1, which the host's read of STATUS shows in
bit 3, and changes nothing else, whatever the value was. -/
def Obligations.IllegalValueSetsIllOnly : Prop :=
  ∀ (s : State) (v : BitVec 64) (es : List HostEvent) (why : Illegal),
    s.phase = .running → s.pending = .write 64 0x108 v :: es → decode v = .error why →
    ∃ t, step s = .next t ∧
      t = { s with pending := es, accessNo := s.accessNo + 1, status := { s.status with ill := true } } ∧
      (hostRead 0x100 t).getLsbD 3 = true

/-- R30: with no host event the machine takes no step of its own; and every event that completes is taken off the front
of the host's list, the rest kept in order (R69). -/
def Obligations.StepTakesOneEventInOrder : Prop :=
  (∀ s : State, s.pending = [] → step s = .next s) ∧
  ∀ (s t : State) (e : HostEvent) (es : List HostEvent), s.pending = e :: es → step s = .next t → t.pending = es

/-- R62: what a supported host read returns, at every offset of the window, and that it changes no state of the block.
The read is access number s.accessNo + 1, which matters only for a never-written limb. -/
def Obligations.HostReadReturnsWindow : Prop :=
  ∀ (s : State) (off : Nat) (es : List HostEvent),
    s.phase = .running → s.pending = .read 64 off :: es → off % 8 = 0 → off < 0x1000 →
    ∃ t v, step s = .next t ∧ t.answers = v :: s.answers ∧
      t.x = s.x ∧ t.w = s.w ∧ t.status = s.status ∧ t.phase = s.phase ∧
      (∀ i : BitVec 3, off = 16 * i.toNat → v = s.nextAccess.readLimb .a (.x i .lo)) ∧
      (∀ i : BitVec 3, off = 16 * i.toNat + 8 → v = s.nextAccess.readLimb .a (.x i .hi)) ∧
      (∀ j k : BitVec 2, off = 0x080 + 32 * j.toNat + 8 * k.toNat → v = s.nextAccess.readLimb .a (.w j k)) ∧
      (off = 0x100 → v.toNat = s.status.cmp.bits.toNat + (if s.status.dom then 4 else 0)
        + (if s.status.ill then 8 else 0)) ∧
      (off = 0x108 → v = 0) ∧
      (off = 0x110 → v = 0xFFFFFFFFFFFFFFFF#64) ∧
      (off = 0x118 → v = 0x7FFFFFFFFFFFFFFF#64) ∧
      (0x120 ≤ off → v = 0)

/-- R68: a host read has no side effect on the block; a second read of the same offset returns the same value (of a
never-written limb nothing is claimed, U1); a second write of the same value anywhere but to CMD changes nothing more;
a CMD write executes each time: `lls x0, x0` written twice advances X0 by two steps. -/
def Obligations.HostAccessIdempotency : Prop :=
  (∀ (s t : State) (width off : Nat) (es : List HostEvent),
    s.pending = .read width off :: es → step s = .next t →
    t.x = s.x ∧ t.w = s.w ∧ t.status = s.status ∧ t.phase = s.phase) ∧
  (∀ (s t u : State) (off : Nat) (es : List HostEvent),
    (∀ n, windowReg off = .limb n → s.isWritten n = true) →
    s.pending = .read 64 off :: .read 64 off :: es → step s = .next t → step t = .next u →
    ∃ v, u.answers = v :: v :: s.answers) ∧
  (∀ (s t u : State) (off : Nat) (v : Limb) (es : List HostEvent),
    off ≠ 0x108 → s.pending = .write 64 off v :: .write 64 off v :: es → step s = .next t → step t = .next u →
    u.x = t.x ∧ u.w = t.w ∧ u.status = t.status) ∧
  ∀ (s : State) (es : List HostEvent),
    s.phase = .running → s.pending = .write 64 0x108 0x90000000 :: .write 64 0x108 0x90000000 :: es →
    ∃ t u, step s = .next t ∧ step t = .next u ∧ ∀ p, u.readX p 0 = llstep (llstep (s.nextAccess.readX .a 0))

/-- R63: what a supported host write does, at every offset: a limb is written and no other limb changes; STATUS bits 2
and 3 clear DOM and ILL and every other bit is ignored; a CMD write executes the value; MOD and reserved offsets ignore
it. -/
def Obligations.HostWriteChangesWindow : Prop :=
  ∀ (s : State) (off : Nat) (v : Limb) (es : List HostEvent),
    s.phase = .running → s.pending = .write 64 off v :: es → off % 8 = 0 → off < 0x1000 →
    (off = 0x108 → step s = execute v { s with pending := es, accessNo := s.accessNo + 1 }) ∧
    (off ≠ 0x108 → ∃ t, step s = .next t ∧ t.phase = s.phase ∧ t.answers = s.answers ∧ t.runFault = s.runFault ∧
      (∀ n : LimbName, off = n.offset →
        t.cell n = ⟨v, true⟩ ∧ SameLimbsBut [n] s t ∧ t.status = s.status) ∧
      (off = 0x100 → t.x = s.x ∧ t.w = s.w ∧ t.status.cmp = s.status.cmp ∧
        t.status.dom = (if v.getLsbD 2 then false else s.status.dom) ∧
        t.status.ill = (if v.getLsbD 3 then false else s.status.ill)) ∧
      (0x110 ≤ off → t.x = s.x ∧ t.w = s.w ∧ t.status = s.status))

/-- R38: MOD always reads M127, in every state; a host write to it changes neither it nor anything else of the block; the
reducer's last stage, the domain check of LLS and LDM use this constant. -/
def Obligations.ModIsAlwaysM127 : Prop :=
  (∀ s : State, hostRead 0x110 s = 0xFFFFFFFFFFFFFFFF#64 ∧ hostRead 0x118 s = 0x7FFFFFFFFFFFFFFF#64) ∧
  (∀ (s : State) (v : Limb) (es : List HostEvent), s.phase = .running →
    (s.pending = .write 64 0x110 v :: es ∨ s.pending = .write 64 0x118 v :: es) →
    step s = .next { s with pending := es, accessNo := s.accessNo + 1 }) ∧
  (∀ s : State,
    (∀ r, normalise127 r = if cmp128 r (join128 (hostRead 0x118 s) (hostRead 0x110 s)) = .less then r
      else sub128 r (join128 (hostRead 0x118 s) (hostRead 0x110 s))) ∧
    (∀ v, outsideDomain v = true ↔ cmp128 v (join128 (hostRead 0x118 s) (hostRead 0x110 s)) ≠ .less) ∧
    ∀ rd, ∃ t, exec (.ldm rd) s = .next t ∧ ∀ p, t.readX p rd = join128 (hostRead 0x118 s) (hostRead 0x110 s))

/-- R69, R67: the host's next read sees the write before it. A read of a limb returns the value just written to it; a
read of STATUS right after a write of STATUS shows the bits cleared; right after the CMD write of any well-formed
command, a read of any limb that the command writes returns the command's result, and a read of STATUS returns the status
it left: the sum for an ADD, the compare result for a CMP, the domain event for an LLS, and ILL for an illegal value. -/
def Obligations.NextReadSeesTheWrite : Prop :=
  (∀ (s : State) (n : LimbName) (v : Limb) (es : List HostEvent),
    s.phase = .running → s.pending = .write 64 n.offset v :: .read 64 n.offset :: es →
    ∃ s₁ s₂, step s = .next s₁ ∧ step s₁ = .next s₂ ∧ s₂.answers = v :: s.answers) ∧
  (∀ (s : State) (v : Limb) (es : List HostEvent),
    s.phase = .running → s.pending = .write 64 0x100 v :: .read 64 0x100 :: es →
    ∃ s₁ s₂ a, step s = .next s₁ ∧ step s₁ = .next s₂ ∧ s₂.answers = a :: s.answers ∧
      a.toNat = s.status.cmp.bits.toNat + (if s.status.dom = true ∧ v.getLsbD 2 = false then 4 else 0)
        + (if s.status.ill = true ∧ v.getLsbD 3 = false then 8 else 0)) ∧
  (∀ (s : State) (i : Instr) (n : LimbName) (es : List HostEvent),
    s.phase = .running → i.WellFormed → n ∈ limbsWritten i →
    s.pending = .write 64 0x108 (encode i) :: .read 64 n.offset :: es →
    ∃ s₁ s₂, exec i { s with pending := .read 64 n.offset :: es, accessNo := s.accessNo + 1 } = .next s₁ ∧
      step s = .next s₁ ∧ step s₁ = .next s₂ ∧ s₂.answers = (s₁.cell n).value :: s.answers ∧
      ∀ p, s₁.readLimb p n = (s₁.cell n).value) ∧
  (∀ (s : State) (i : Instr) (es : List HostEvent),
    s.phase = .running → i.WellFormed → s.pending = .write 64 0x108 (encode i) :: .read 64 0x100 :: es →
    ∃ s₁ s₂ a, exec i { s with pending := .read 64 0x100 :: es, accessNo := s.accessNo + 1 } = .next s₁ ∧
      step s = .next s₁ ∧ step s₁ = .next s₂ ∧ s₂.answers = a :: s.answers ∧
      a.toNat = s₁.status.cmp.bits.toNat + (if s₁.status.dom then 4 else 0) + (if s₁.status.ill then 8 else 0)) ∧
  (∀ (s : State) (rd ra rb : XField) (es : List HostEvent),
    s.phase = .running → s.pending = .write 64 0x108 (encode (.add rd ra rb)) :: .read 64 (16 * rd.toNat) :: es →
    ∃ s₁ s₂, step s = .next s₁ ∧ step s₁ = .next s₂ ∧
      s₂.answers = (lo128 (add128 (s.nextAccess.readX .a ra) (s.nextAccess.readX .b rb))) :: s.answers) ∧
  (∀ (s : State) (ra rb : XField) (es : List HostEvent),
    s.phase = .running → s.pending = .write 64 0x108 (encode (.cmp ra rb)) :: .read 64 0x100 :: es →
    ∃ s₁ s₂ a, step s = .next s₁ ∧ step s₁ = .next s₂ ∧ s₂.answers = a :: s.answers ∧
      a.extractLsb' 0 2 =
        (match cmp128 (s.nextAccess.readX .a ra) (s.nextAccess.readX .b rb) with
          | .less => 0b01#2
          | .equal => 0b10#2
          | .greater => 0b11#2)) ∧
  (∀ (s : State) (rd ra : XField) (es : List HostEvent),
    s.phase = .running → s.pending = .write 64 0x108 (encode (.lls rd ra)) :: .read 64 0x100 :: es →
    ∃ s₁ s₂ a, step s = .next s₁ ∧ step s₁ = .next s₂ ∧ s₂.answers = a :: s.answers ∧
      (a.getLsbD 2 = true ↔ s.status.dom = true ∨ 2 ^ 127 - 1 ≤ (s.nextAccess.readX .a ra).toNat)) ∧
  ∀ (s : State) (v : BitVec 64) (why : Illegal) (es : List HostEvent),
    s.phase = .running → decode v = .error why → s.pending = .write 64 0x108 v :: .read 64 0x100 :: es →
    ∃ s₁ s₂ a, step s = .next s₁ ∧ step s₁ = .next s₂ ∧ s₂.answers = a :: s.answers ∧ a.getLsbD 3 = true

/-- R64 and U2: an access of another width, at a misaligned offset or outside the window is refused; a 64-bit access at
an 8-byte-aligned offset of the window is performed. -/
def Obligations.UnsupportedAccessIsRefused : Prop :=
  ∀ (s : State) (width off : Nat) (v : Limb) (es : List HostEvent),
    (s.pending = .read width off :: es ∨ s.pending = .write width off v :: es) →
    ((width ≠ 64 ∨ off % 8 ≠ 0 ∨ 0x1000 ≤ off) → ∃ r, step s = .refused r) ∧
    (s.phase = .running → width = 64 → off % 8 = 0 → off < 0x1000 → ∃ t, step s = .next t)

/-- R290, with R43's values: from any state, asserting reset and releasing it leaves STATUS at 0 with CMP NONE, every
limb of X and W never-written and the block running, as State.reset is; MOD still reads M127. An access while reset is
asserted, and a reset asserted during an access, are refused (U3); so is an access after a loss of power until reset has
been applied (R274). -/
def Obligations.ResetLeavesResetState : Prop :=
  (∀ (s : State) (es : List HostEvent), s.pending = .assertReset :: .releaseReset :: es →
    ∃ s₁ s₂, step s = .next s₁ ∧ s₁.phase = .inReset ∧ step s₁ = .next s₂ ∧ s₂.phase = .running ∧
      s₂.status = ⟨.none, false, false⟩ ∧ (∀ n, s₂.isWritten n = false) ∧
      s₂.x = State.reset.x ∧ s₂.w = State.reset.w ∧ s₂.pending = es ∧
      hostRead 0x110 s₂ = 0xFFFFFFFFFFFFFFFF#64 ∧ hostRead 0x118 s₂ = 0x7FFFFFFFFFFFFFFF#64) ∧
  (State.reset.status = ⟨.none, false, false⟩ ∧ State.reset.phase = .running ∧
    (∀ n, State.reset.isWritten n = false) ∧ hostRead 0x100 State.reset = 0) ∧
  (∀ (s : State) (width off : Nat) (v : Limb) (es : List HostEvent),
    s.phase = .inReset ∨ s.phase = .awaitingReset →
    (s.pending = .read width off :: es ∨ s.pending = .write width off v :: es) → ∃ r, step s = .refused r) ∧
  (∀ (s : State) (es : List HostEvent), s.pending = .resetDuringAccess :: es → ∃ r, step s = .refused r) ∧
  ∀ (s : State) (es : List HostEvent), s.pending = .powerLoss :: es → ∃ t, step s = .next t ∧ t.phase = .awaitingReset

/-- R37 and R40, over every step of the machine: CMP changes only by a CMP command or reset; DOM is set only by an LLS
whose operand is M127 or more and cleared only by a host write to STATUS with bit 2 set or by reset; ILL is set only by
an illegal CMD value and cleared only by a host write to STATUS with bit 3 set or by reset. That a loss
of power changes nothing before the reset that must follow it is the model's choice (R274; notes/assumptions/19.md). -/
def Obligations.OnlyTheseEventsChangeStatus : Prop :=
  ∀ s t : State, step s = .next t →
    (t.status.cmp ≠ s.status.cmp →
      (∃ v es ra rb, s.pending = .write 64 0x108 v :: es ∧ decode v = .ok (.cmp ra rb)) ∨
      ∃ es, s.pending = .assertReset :: es) ∧
    (s.status.dom = false → t.status.dom = true →
      ∃ v es rd ra, s.pending = .write 64 0x108 v :: es ∧ decode v = .ok (.lls rd ra) ∧
        2 ^ 127 - 1 ≤ (s.nextAccess.readX .a ra).toNat) ∧
    (s.status.dom = true → t.status.dom = false →
      (∃ v es, s.pending = .write 64 0x100 v :: es ∧ v.getLsbD 2 = true) ∨ ∃ es, s.pending = .assertReset :: es) ∧
    (s.status.ill = false → t.status.ill = true →
      ∃ v es why, s.pending = .write 64 0x108 v :: es ∧ decode v = .error why) ∧
    (s.status.ill = true → t.status.ill = false →
      (∃ v es, s.pending = .write 64 0x100 v :: es ∧ v.getLsbD 3 = true) ∨ ∃ es, s.pending = .assertReset :: es)

/-- R265: one event at most for each CMD write: an illegal value leaves DOM as it was, a legal one leaves ILL as it was,
and a legal one that is no LLS leaves both. -/
def Obligations.OneEventPerCmdWrite : Prop :=
  ∀ (s t : State) (v : BitVec 64) (es : List HostEvent),
    s.pending = .write 64 0x108 v :: es → step s = .next t →
    (∀ why, decode v = .error why → t.status.dom = s.status.dom) ∧
    (∀ i, decode v = .ok i → t.status.ill = s.status.ill ∧ (isLls i = false → t.status.dom = s.status.dom))

/-- R260, R266, R297: every command completes in every state, and every CMD value, legal or not, is carried out while
the block is running: no command faults, is refused or takes a trap. -/
def Obligations.EveryCommandCompletes : Prop :=
  (∀ (i : Instr) (s : State), ∃ t, exec i s = .next t) ∧
  ∀ (s : State) (v : BitVec 64) (es : List HostEvent),
    s.phase = .running → s.pending = .write 64 0x108 v :: es → ∃ t, step s = .next t

/-- The canonical form of the register files (the model's own, notes/assumptions/2.md) is kept by every step: a
never-written limb holds the placeholder 0. -/
def Obligations.StepKeepsCanonicalForm : Prop :=
  ∀ s t : State, s.Canonical → step s = .next t → t.Canonical

/-- The canonical form holds at reset. -/
def Obligations.ResetIsCanonical : Prop := State.reset.Canonical

/-- Once written, a limb stays written until reset is asserted (R44): no command and no host access unmarks it, and
no loss of power, which is the model's choice (R274; notes/assumptions/19.md). -/
def Obligations.WrittenLimbStaysWritten : Prop :=
  ∀ (s t : State) (n : LimbName), step s = .next t → s.isWritten n = true →
    t.isWritten n = true ∨ ∃ es, s.pending = .assertReset :: es

/-- R46, R60: a step of a platform is one agent's next access, taken off that agent's list, and it is the access that the
block alone would perform, at the offset of its address, in the instance whose window holds the address (or at the
instance whose reset input is meant); every other instance is as it was, and the bases never change. Which agent is next
is any (R69). Of overlapping windows, of which the spec says nothing, the first answers (notes/assumptions/13.md). -/
def Obligations.InstancesShareNoState : Prop :=
  ∀ (p q : Platform) (agent : Nat), p.step agent = .next q →
    (p.agents[agent]? = some [] → q = p) ∧ (p.agents[agent]? = none → q = p) ∧
    ∀ (e : BusEvent) (es : List BusEvent), p.agents[agent]? = some (e :: es) →
      q.agents = p.agents.set agent es ∧ q.instances.length = p.instances.length ∧
      ∃ (k : Nat) (ev : HostEvent),
        (match e with
          | .read width addr => p.route addr = some k ∧ (∃ a, p.instances[k]? = some a ∧ a.base ≤ addr ∧
              addr < a.base + 4096 ∧ ev = .read width (addr - a.base))
          | .write width addr v => p.route addr = some k ∧ (∃ a, p.instances[k]? = some a ∧ a.base ≤ addr ∧
              addr < a.base + 4096 ∧ ev = .write width (addr - a.base) v)
          | .assertReset j => k = j ∧ ev = .assertReset
          | .releaseReset j => k = j ∧ ev = .releaseReset) ∧
        (∀ j, j ≠ k → q.instances[j]? = p.instances[j]?) ∧
        ∀ a, p.instances[k]? = some a →
          ∃ b, q.instances[k]? = some b ∧ b.base = a.base ∧ perform ev a.core.nextAccess = .next b.core

/-- The run's record over every step (U1, R44): a host read of a never-written limb records it, a command records the
first never-written limb that it reads, in both cases unless the run was faulted before; no other event, and no read of
another offset, records anything, and none takes the record back. That the record stops nothing is the model's choice
(notes/assumptions/1.md), and so is that an asserted reset leaves it (notes/assumptions/12.md). -/
def Obligations.RunRecordOverEveryStep : Prop :=
  ∀ s t : State, step s = .next t →
    (∀ f, s.runFault = some f → t.runFault = some f) ∧
    (∀ width off es, s.pending = .read width off :: es →
      (∀ n : LimbName, off = n.offset → t.runFault = recordAfter s [n]) ∧ (0x100 ≤ off → t.runFault = s.runFault)) ∧
    (∀ width off v es, s.pending = .write width off v :: es →
      (∀ i, off = 0x108 → decode v = .ok i → t.runFault = recordAfter s (limbsRead i)) ∧
      (∀ why, off = 0x108 → decode v = .error why → t.runFault = s.runFault) ∧
      (off ≠ 0x108 → t.runFault = s.runFault)) ∧
    (∀ e es, s.pending = e :: es → e = .assertReset ∨ e = .releaseReset ∨ e = .powerLoss → t.runFault = s.runFault) ∧
    (s.pending = [] → t.runFault = s.runFault)

/-- R272: each instance of a platform starts from its own reset, with its own base and its own stream of free values, so
that nothing can be assumed of one instance's never-written limbs from another's (U1; notes/assumptions/18.md); and every
step, whichever agent is next, keeps the streams apart. -/
def Obligations.InstancesStayIndependent : Prop :=
  (∀ (bases : List Nat) (agents : List (List BusEvent)),
    (Platform.atReset bases agents).Independent ∧ (Platform.atReset bases agents).instances.length = bases.length ∧
    ∀ (k base : Nat), bases[k]? = some base →
      (Platform.atReset bases agents).instances[k]? = some ⟨base, { State.reset with freeStream := k }⟩) ∧
  ∀ (p q : Platform) (agent : Nat), p.Independent → p.step agent = .next q → q.Independent
end

