-- ==== Sys2Proof/Laws/Limbs.lean ====
section
/-! SUPPORT. Limbs and the integers they make up: R12 and R13 as lemmas. -/

namespace Sys2Proof.Machine

@[simp] theorem lo128_toNat (v : Limb128) : (lo128 v).toNat = v.toNat % 2 ^ 64 := by
  simp [lo128]

@[simp] theorem hi128_toNat (v : Limb128) : (hi128 v).toNat = v.toNat / 2 ^ 64 := by
  have h := v.isLt
  simp only [hi128, BitVec.extractLsb'_toNat, Nat.shiftRight_eq_div_pow]
  omega

@[simp] theorem join128_toNat (hi lo : Limb) : (join128 hi lo).toNat = hi.toNat * 2 ^ 64 + lo.toNat := by
  simp only [join128]
  rw [BitVec.toNat_append, ← Nat.shiftLeft_add_eq_or_of_lt lo.isLt, Nat.shiftLeft_eq]

@[simp] theorem lo128_join128 (hi lo : Limb) : lo128 (join128 hi lo) = lo := by
  apply BitVec.eq_of_toNat_eq
  have := lo.isLt
  simp only [lo128_toNat, join128_toNat]
  omega

@[simp] theorem hi128_join128 (hi lo : Limb) : hi128 (join128 hi lo) = hi := by
  apply BitVec.eq_of_toNat_eq
  have := lo.isLt
  simp only [hi128_toNat, join128_toNat]
  omega

@[simp] theorem join128_hi128_lo128 (v : Limb128) : join128 (hi128 v) (lo128 v) = v := by
  apply BitVec.eq_of_toNat_eq
  simp only [lo128_toNat, join128_toNat, hi128_toNat]
  omega

@[simp] theorem limb256_toNat (w : Limb256) (k : Nat) : (limb256 w k).toNat = w.toNat / 2 ^ (64 * k) % 2 ^ 64 := by
  simp only [limb256, BitVec.extractLsb'_toNat, Nat.shiftRight_eq_div_pow]

@[simp] theorem join256_toNat (l3 l2 l1 l0 : Limb) : (join256 l3 l2 l1 l0).toNat
    = l3.toNat * 2 ^ 192 + l2.toNat * 2 ^ 128 + l1.toNat * 2 ^ 64 + l0.toNat := by
  simp only [join256, BitVec.toNat_append]
  rw [← Nat.shiftLeft_add_eq_or_of_lt l2.isLt, ← Nat.shiftLeft_add_eq_or_of_lt l1.isLt,
    ← Nat.shiftLeft_add_eq_or_of_lt l0.isLt]
  simp only [Nat.shiftLeft_eq]
  omega

theorem limb256_join256 (l3 l2 l1 l0 : Limb) :
    limb256 (join256 l3 l2 l1 l0) 0 = l0 ∧ limb256 (join256 l3 l2 l1 l0) 1 = l1 ∧
    limb256 (join256 l3 l2 l1 l0) 2 = l2 ∧ limb256 (join256 l3 l2 l1 l0) 3 = l3 := by
  have h0 := l0.isLt
  have h1 := l1.isLt
  have h2 := l2.isLt
  have h3 := l3.isLt
  refine ⟨?_, ?_, ?_, ?_⟩ <;>
  · apply BitVec.eq_of_toNat_eq
    simp only [limb256_toNat, join256_toNat]
    omega

@[simp] theorem join256_limbs (w : Limb256) : join256 (limb256 w 3) (limb256 w 2) (limb256 w 1) (limb256 w 0) = w := by
  apply BitVec.eq_of_toNat_eq
  have h := w.isLt
  simp only [limb256_toNat, join256_toNat]
  omega

end Sys2Proof.Machine
end

