-- ==== Sys2Proof/Laws/Arith.lean ====
section
/-! SUPPORT. One spec lemma per arithmetic function: its value as a natural number. -/

namespace Sys2Proof.Machine

theorem add128_toNat (a b : Limb128) : (add128 a b).toNat = (a.toNat + b.toNat) % 2 ^ 128 := by
  simp [add128]

theorem sub128_toNat (a b : Limb128) : (sub128 a b).toNat = (2 ^ 128 + a.toNat - b.toNat) % 2 ^ 128 := by
  have := a.isLt
  have := b.isLt
  simp only [sub128, BitVec.toNat_ofInt]
  omega

theorem subs256_toNat (x : Limb256) (v : Limb) : (subs256 x v).toNat = (2 ^ 256 + x.toNat - v.toNat) % 2 ^ 256 := by
  have := x.isLt
  have := v.isLt
  simp only [subs256, BitVec.toNat_ofInt]
  omega

theorem m127_toNat : Config.m127.toNat = 2 ^ 127 - 1 := by decide

/-- The domain test of LLS is the numeric one (R221). -/
theorem outsideDomain_eq (v : Limb128) : outsideDomain v = !decide (v.toNat < 2 ^ 127 - 1) := by
  have hv := v.isLt
  have hm := m127_toNat
  simp only [outsideDomain, cmp128, hi128_toNat, lo128_toNat, hm]
  by_cases h : v.toNat < 2 ^ 127 - 1
  · simp only [h, decide_true, Bool.not_true]
    split
    · rfl
    · split
      · omega
      · split
        · rfl
        · omega
  · simp only [h, decide_false, Bool.not_false]
    split
    · omega
    · split
      · rfl
      · split
        · omega
        · split <;> rfl

end Sys2Proof.Machine
end

