-- ==== Sys2Proof/Laws/Encoding.lean ====
section
/-! SUPPORT. The fields of an encoded command word read back as they were encoded (R91 to R93, R102). -/

namespace Sys2Proof

@[simp] theorem opField_formatR (op : BitVec 4) (rd ra rb : BitVec 3) (sa sb : BitVec 1) :
    opField (formatR op rd ra rb sa sb) = op := by
  apply BitVec.eq_of_getLsbD_eq
  intro i hi
  interval_cases i <;> simp [opField, formatR]

@[simp] theorem rdField_formatR (op : BitVec 4) (rd ra rb : BitVec 3) (sa sb : BitVec 1) :
    rdField (formatR op rd ra rb sa sb) = rd := by
  apply BitVec.eq_of_getLsbD_eq
  intro i hi
  interval_cases i <;> simp [rdField, formatR]

@[simp] theorem raField_formatR (op : BitVec 4) (rd ra rb : BitVec 3) (sa sb : BitVec 1) :
    raField (formatR op rd ra rb sa sb) = ra := by
  apply BitVec.eq_of_getLsbD_eq
  intro i hi
  interval_cases i <;> simp [raField, formatR]

@[simp] theorem rbField_formatR (op : BitVec 4) (rd ra rb : BitVec 3) (sa sb : BitVec 1) :
    rbField (formatR op rd ra rb sa sb) = rb := by
  apply BitVec.eq_of_getLsbD_eq
  intro i hi
  interval_cases i <;> simp [rbField, formatR]

@[simp] theorem opField_formatI (op : BitVec 4) (rd ra : BitVec 3) (imm : BitVec 16) :
    opField (formatI op rd ra imm) = op := by
  apply BitVec.eq_of_getLsbD_eq
  intro i hi
  interval_cases i <;> simp [opField, formatI]

@[simp] theorem rdField_formatI (op : BitVec 4) (rd ra : BitVec 3) (imm : BitVec 16) :
    rdField (formatI op rd ra imm) = rd := by
  apply BitVec.eq_of_getLsbD_eq
  intro i hi
  interval_cases i <;> simp [rdField, formatI]

@[simp] theorem raField_formatI (op : BitVec 4) (rd ra : BitVec 3) (imm : BitVec 16) :
    raField (formatI op rd ra imm) = ra := by
  apply BitVec.eq_of_getLsbD_eq
  intro i hi
  interval_cases i <;> simp [raField, formatI]

@[simp] theorem immField_formatI (op : BitVec 4) (rd ra : BitVec 3) (imm : BitVec 16) :
    immField (formatI op rd ra imm) = imm := by
  apply BitVec.eq_of_getLsbD_eq
  intro i hi
  interval_cases i <;> simp [immField, formatI]

@[simp] theorem saField_formatR (op : BitVec 4) (rd ra rb : BitVec 3) (sa sb : LimbSel) :
    saField (formatR op rd ra rb sa.bit sb.bit) = sa := by
  cases sa <;> cases sb <;> simp [saField, formatR, limbSelOfBit, LimbSel.bit]

@[simp] theorem sbField_formatR (op : BitVec 4) (rd ra rb : BitVec 3) (sa sb : LimbSel) :
    sbField (formatR op rd ra rb sa.bit sb.bit) = sb := by
  cases sa <;> cases sb <;> simp [sbField, formatR, limbSelOfBit, LimbSel.bit]

end Sys2Proof
end

