-- ==== Sys2Proof/Laws/PerInstr.lean ====
section
/-! SUPPORT. Per instruction: the word a well-formed command is encoded to is of the command's own row of the opcode map
(R97), and the row reads the command back from it (R102). -/

namespace Sys2Proof.Laws.RowReadsBack

/-- The encoded word meets the row's mask and pattern, and its fields are the command's operands. -/
def Statement (i : Instr) : Prop :=
  i.WellFormed → i.row.hits (encodeWord i) = true ∧ i.row.build (encodeWord i) = i

theorem nop : Statement (.nop) := by
  intro h
  refine ⟨?_, by simp [Instr.row, rowNop, encodeWord]⟩
  simp only [Instr.row, OpcodeRow.hits, rowNop, encodeWord, beq_iff_eq]
  apply BitVec.eq_of_getLsbD_eq
  intro i hi
  interval_cases i <;> simp [formatR]

theorem add (rd : BitVec 3) (ra : BitVec 3) (rb : BitVec 3) : Statement (.add rd ra rb) := by
  intro h
  refine ⟨?_, by simp [Instr.row, rowAdd, encodeWord]⟩
  simp only [Instr.row, OpcodeRow.hits, rowAdd, encodeWord, beq_iff_eq]
  apply BitVec.eq_of_getLsbD_eq
  intro i hi
  interval_cases i <;> simp [formatR]

theorem sub (rd : BitVec 3) (ra : BitVec 3) (rb : BitVec 3) : Statement (.sub rd ra rb) := by
  intro h
  refine ⟨?_, by simp [Instr.row, rowSub, encodeWord]⟩
  simp only [Instr.row, OpcodeRow.hits, rowSub, encodeWord, beq_iff_eq]
  apply BitVec.eq_of_getLsbD_eq
  intro i hi
  interval_cases i <;> simp [formatR]

theorem cmp (ra : BitVec 3) (rb : BitVec 3) : Statement (.cmp ra rb) := by
  intro h
  refine ⟨?_, by simp [Instr.row, rowCmp, encodeWord]⟩
  simp only [Instr.row, OpcodeRow.hits, rowCmp, encodeWord, beq_iff_eq]
  apply BitVec.eq_of_getLsbD_eq
  intro i hi
  interval_cases i <;> simp [formatR]

theorem mulw (rd : BitVec 3) (ra : BitVec 3) (rb : BitVec 3) (sa : LimbSel) (sb : LimbSel) : Statement (.mulw rd ra rb sa sb) := by
  intro h
  refine ⟨?_, by simp [Instr.row, rowMulw, encodeWord]⟩
  simp only [Instr.row, OpcodeRow.hits, rowMulw, encodeWord, beq_iff_eq]
  apply BitVec.eq_of_getLsbD_eq
  intro i hi
  cases sa <;> cases sb <;>
  interval_cases i <;> simp [formatR, LimbSel.bit]

theorem sqr (rd : BitVec 3) (ra : BitVec 3) : Statement (.sqr rd ra) := by
  intro h
  refine ⟨?_, by simp [Instr.row, rowSqr, encodeWord]⟩
  simp [Instr.WellFormed, Instr.wellFormed, WField.ok] at h
  simp only [Instr.row, OpcodeRow.hits, rowSqr, encodeWord, beq_iff_eq]
  apply BitVec.eq_of_getLsbD_eq
  intro i hi
  interval_cases i <;> simp [formatR, h]

theorem subw (rd : BitVec 3) (ra : BitVec 3) (rb : BitVec 3) : Statement (.subw rd ra rb) := by
  intro h
  refine ⟨?_, by simp [Instr.row, rowSubw, encodeWord]⟩
  simp [Instr.WellFormed, Instr.wellFormed, WField.ok] at h
  simp only [Instr.row, OpcodeRow.hits, rowSubw, encodeWord, beq_iff_eq]
  apply BitVec.eq_of_getLsbD_eq
  intro i hi
  interval_cases i <;> simp [formatR, h]

theorem subwi (rd : BitVec 3) (ra : BitVec 3) (imm : BitVec 16) : Statement (.subwi rd ra imm) := by
  intro h
  refine ⟨?_, by simp [Instr.row, rowSubwi, encodeWord]⟩
  simp [Instr.WellFormed, Instr.wellFormed, WField.ok] at h
  simp only [Instr.row, OpcodeRow.hits, rowSubwi, encodeWord, beq_iff_eq]
  apply BitVec.eq_of_getLsbD_eq
  intro i hi
  interval_cases i <;> simp [formatI, h]

theorem red (rd : BitVec 3) (ra : BitVec 3) : Statement (.red rd ra) := by
  intro h
  refine ⟨?_, by simp [Instr.row, rowRed, encodeWord]⟩
  simp [Instr.WellFormed, Instr.wellFormed, WField.ok] at h
  simp only [Instr.row, OpcodeRow.hits, rowRed, encodeWord, beq_iff_eq]
  apply BitVec.eq_of_getLsbD_eq
  intro i hi
  interval_cases i <;> simp [formatR, h]

theorem lls (rd : BitVec 3) (ra : BitVec 3) : Statement (.lls rd ra) := by
  intro h
  refine ⟨?_, by simp [Instr.row, rowLls, encodeWord]⟩
  simp only [Instr.row, OpcodeRow.hits, rowLls, encodeWord, beq_iff_eq]
  apply BitVec.eq_of_getLsbD_eq
  intro i hi
  interval_cases i <;> simp [formatR]

theorem ldi (rd : BitVec 3) (imm : BitVec 16) : Statement (.ldi rd imm) := by
  intro h
  refine ⟨?_, by simp [Instr.row, rowLdi, encodeWord]⟩
  simp only [Instr.row, OpcodeRow.hits, rowLdi, encodeWord, beq_iff_eq]
  apply BitVec.eq_of_getLsbD_eq
  intro i hi
  interval_cases i <;> simp [formatI]

theorem ldm (rd : BitVec 3) : Statement (.ldm rd) := by
  intro h
  refine ⟨?_, by simp [Instr.row, rowLdm, encodeWord]⟩
  simp only [Instr.row, OpcodeRow.hits, rowLdm, encodeWord, beq_iff_eq]
  apply BitVec.eq_of_getLsbD_eq
  intro i hi
  interval_cases i <;> simp [formatR]

end Sys2Proof.Laws.RowReadsBack
end

