-- ==== Sys2Proof/Laws/Decode.lean ====
section
/-! SUPPORT. The opcode map has one row for each OP, so the row a word hits is the row the decoder finds (R97, R98). -/

namespace Sys2Proof

theorem Instr.row_mem (i : Instr) : i.row ∈ opcodeRows := by
  cases i <;> simp [Instr.row, opcodeRows]

/-- A word that hits a row has the row's OP, since every mask covers bits 31:28. -/
theorem opField_of_hits {r : OpcodeRow} (hr : r ∈ opcodeRows) {w : CmdWord} (h : r.hits w = true) :
    opField w = opField r.pattern := by
  have hm : ∀ i < 4, r.mask.getLsbD (28 + i) = true := by
    simp only [opcodeRows, List.mem_cons, List.not_mem_nil, or_false] at hr
    rcases hr with rfl | rfl | rfl | rfl | rfl | rfl | rfl | rfl | rfl | rfl | rfl | rfl <;> decide
  simp only [OpcodeRow.hits, beq_iff_eq] at h
  rw [← h]
  apply BitVec.eq_of_getLsbD_eq
  intro i hi
  simp [opField, hm i hi]

/-- Two rows of the opcode map with the same OP are the same row. -/
theorem row_eq_of_opField {r q : OpcodeRow} (hr : r ∈ opcodeRows) (hq : q ∈ opcodeRows)
    (h : opField r.pattern = opField q.pattern) : r = q := by
  simp only [opcodeRows, List.mem_cons, List.not_mem_nil, or_false] at hr hq
  rcases hr with rfl | rfl | rfl | rfl | rfl | rfl | rfl | rfl | rfl | rfl | rfl | rfl <;>
    rcases hq with rfl | rfl | rfl | rfl | rfl | rfl | rfl | rfl | rfl | rfl | rfl | rfl <;>
    first | rfl | exact absurd h (by decide)

/-- A word that hits a row decodes to what the row builds from it. -/
theorem decodeWord_of_hits {r : OpcodeRow} (hr : r ∈ opcodeRows) {w : CmdWord} (h : r.hits w = true) :
    decodeWord w = .ok (r.build w) := by
  unfold decodeWord
  split
  · rename_i q hq
    have hw : q.hits w = true := List.find?_some (p := fun r => OpcodeRow.hits r w) hq
    rw [row_eq_of_opField hr (List.mem_of_find?_eq_some hq)
      ((opField_of_hits hr h).symm.trans (opField_of_hits (List.mem_of_find?_eq_some hq) hw))]
  · rename_i hn
    exact absurd h (List.find?_eq_none.1 hn r hr)

/-- A word that decodes hits the row that built the command. -/
theorem hits_of_decodeWord {w : CmdWord} {i : Instr} (h : decodeWord w = .ok i) :
    ∃ r ∈ opcodeRows, r.hits w = true ∧ i = r.build w := by
  unfold decodeWord at h
  split at h
  · rename_i q hq
    exact ⟨q, List.mem_of_find?_eq_some hq, List.find?_some (p := fun r => OpcodeRow.hits r w) hq, by cases h; rfl⟩
  · cases h

/-- A command word, zero-extended, is decoded as the word (R90). -/
theorem decode_setWidth (w : CmdWord) : decode (w.setWidth 64) = decodeWord w := by
  have hhi : (w.setWidth 64).extractLsb' 32 32 = 0 := by
    apply BitVec.eq_of_getLsbD_eq
    intro i hi
    simp
  have hlo : (w.setWidth 64).extractLsb' 0 32 = w := by
    apply BitVec.eq_of_getLsbD_eq
    intro i hi
    simp only [BitVec.getLsbD_extractLsb', BitVec.getLsbD_setWidth, hi, Nat.zero_add, decide_true, Bool.true_and]
    simp [Nat.lt_trans hi (by decide : 32 < 64)]
  simp [decode, hhi, hlo]

end Sys2Proof
end

