-- ==== Sys2Proof/Laws/State.lean ====
section
/-! SUPPORT. One lemma per field per update of the state. -/

namespace Sys2Proof.Machine

@[simp] theorem State.withX_x (s : State) (i : BitVec 3) (r : XRegister) :
    (s.withX i r).x = s.x.set i.toNat r i.isLt := rfl
@[simp] theorem State.withX_w (s : State) (i : BitVec 3) (r : XRegister) : (s.withX i r).w = s.w := rfl
@[simp] theorem State.withX_status (s : State) (i : BitVec 3) (r : XRegister) : (s.withX i r).status = s.status := rfl
@[simp] theorem State.withX_phase (s : State) (i : BitVec 3) (r : XRegister) : (s.withX i r).phase = s.phase := rfl
@[simp] theorem State.withX_pending (s : State) (i : BitVec 3) (r : XRegister) :
    (s.withX i r).pending = s.pending := rfl
@[simp] theorem State.withX_answers (s : State) (i : BitVec 3) (r : XRegister) :
    (s.withX i r).answers = s.answers := rfl
@[simp] theorem State.withX_accessNo (s : State) (i : BitVec 3) (r : XRegister) :
    (s.withX i r).accessNo = s.accessNo := rfl
@[simp] theorem State.withX_freeStream (s : State) (i : BitVec 3) (r : XRegister) :
    (s.withX i r).freeStream = s.freeStream := rfl
@[simp] theorem State.withX_runFault (s : State) (i : BitVec 3) (r : XRegister) :
    (s.withX i r).runFault = s.runFault := rfl

@[simp] theorem State.withW_x (s : State) (j : BitVec 2) (r : WRegister) : (s.withW j r).x = s.x := rfl
@[simp] theorem State.withW_w (s : State) (j : BitVec 2) (r : WRegister) :
    (s.withW j r).w = s.w.set j.toNat r j.isLt := rfl
@[simp] theorem State.withW_status (s : State) (j : BitVec 2) (r : WRegister) : (s.withW j r).status = s.status := rfl
@[simp] theorem State.withW_phase (s : State) (j : BitVec 2) (r : WRegister) : (s.withW j r).phase = s.phase := rfl
@[simp] theorem State.withW_pending (s : State) (j : BitVec 2) (r : WRegister) :
    (s.withW j r).pending = s.pending := rfl
@[simp] theorem State.withW_answers (s : State) (j : BitVec 2) (r : WRegister) :
    (s.withW j r).answers = s.answers := rfl
@[simp] theorem State.withW_accessNo (s : State) (j : BitVec 2) (r : WRegister) :
    (s.withW j r).accessNo = s.accessNo := rfl
@[simp] theorem State.withW_freeStream (s : State) (j : BitVec 2) (r : WRegister) :
    (s.withW j r).freeStream = s.freeStream := rfl
@[simp] theorem State.withW_runFault (s : State) (j : BitVec 2) (r : WRegister) :
    (s.withW j r).runFault = s.runFault := rfl

@[simp] theorem State.withStatus_x (s : State) (st : Status) : (s.withStatus st).x = s.x := rfl
@[simp] theorem State.withStatus_w (s : State) (st : Status) : (s.withStatus st).w = s.w := rfl
@[simp] theorem State.withStatus_status (s : State) (st : Status) : (s.withStatus st).status = st := rfl
@[simp] theorem State.withStatus_phase (s : State) (st : Status) : (s.withStatus st).phase = s.phase := rfl
@[simp] theorem State.withStatus_pending (s : State) (st : Status) : (s.withStatus st).pending = s.pending := rfl
@[simp] theorem State.withStatus_answers (s : State) (st : Status) : (s.withStatus st).answers = s.answers := rfl
@[simp] theorem State.withStatus_accessNo (s : State) (st : Status) : (s.withStatus st).accessNo = s.accessNo := rfl
@[simp] theorem State.withStatus_freeStream (s : State) (st : Status) :
    (s.withStatus st).freeStream = s.freeStream := rfl
@[simp] theorem State.withStatus_runFault (s : State) (st : Status) : (s.withStatus st).runFault = s.runFault := rfl

@[simp] theorem State.withPhase_x (s : State) (p : Phase) : (s.withPhase p).x = s.x := rfl
@[simp] theorem State.withPhase_w (s : State) (p : Phase) : (s.withPhase p).w = s.w := rfl
@[simp] theorem State.withPhase_status (s : State) (p : Phase) : (s.withPhase p).status = s.status := rfl
@[simp] theorem State.withPhase_phase (s : State) (p : Phase) : (s.withPhase p).phase = p := rfl
@[simp] theorem State.withPhase_pending (s : State) (p : Phase) : (s.withPhase p).pending = s.pending := rfl
@[simp] theorem State.withPhase_answers (s : State) (p : Phase) : (s.withPhase p).answers = s.answers := rfl
@[simp] theorem State.withPhase_accessNo (s : State) (p : Phase) : (s.withPhase p).accessNo = s.accessNo := rfl
@[simp] theorem State.withPhase_freeStream (s : State) (p : Phase) : (s.withPhase p).freeStream = s.freeStream := rfl
@[simp] theorem State.withPhase_runFault (s : State) (p : Phase) : (s.withPhase p).runFault = s.runFault := rfl

@[simp] theorem State.withPending_x (s : State) (es : List HostEvent) : (s.withPending es).x = s.x := rfl
@[simp] theorem State.withPending_w (s : State) (es : List HostEvent) : (s.withPending es).w = s.w := rfl
@[simp] theorem State.withPending_status (s : State) (es : List HostEvent) :
    (s.withPending es).status = s.status := rfl
@[simp] theorem State.withPending_phase (s : State) (es : List HostEvent) : (s.withPending es).phase = s.phase := rfl
@[simp] theorem State.withPending_pending (s : State) (es : List HostEvent) : (s.withPending es).pending = es := rfl
@[simp] theorem State.withPending_answers (s : State) (es : List HostEvent) :
    (s.withPending es).answers = s.answers := rfl
@[simp] theorem State.withPending_accessNo (s : State) (es : List HostEvent) :
    (s.withPending es).accessNo = s.accessNo := rfl
@[simp] theorem State.withPending_freeStream (s : State) (es : List HostEvent) :
    (s.withPending es).freeStream = s.freeStream := rfl
@[simp] theorem State.withPending_runFault (s : State) (es : List HostEvent) :
    (s.withPending es).runFault = s.runFault := rfl

@[simp] theorem State.withRunFault_x (s : State) (f : Option Fault) : (s.withRunFault f).x = s.x := rfl
@[simp] theorem State.withRunFault_w (s : State) (f : Option Fault) : (s.withRunFault f).w = s.w := rfl
@[simp] theorem State.withRunFault_status (s : State) (f : Option Fault) : (s.withRunFault f).status = s.status := rfl
@[simp] theorem State.withRunFault_phase (s : State) (f : Option Fault) : (s.withRunFault f).phase = s.phase := rfl
@[simp] theorem State.withRunFault_pending (s : State) (f : Option Fault) :
    (s.withRunFault f).pending = s.pending := rfl
@[simp] theorem State.withRunFault_answers (s : State) (f : Option Fault) :
    (s.withRunFault f).answers = s.answers := rfl
@[simp] theorem State.withRunFault_accessNo (s : State) (f : Option Fault) :
    (s.withRunFault f).accessNo = s.accessNo := rfl
@[simp] theorem State.withRunFault_freeStream (s : State) (f : Option Fault) :
    (s.withRunFault f).freeStream = s.freeStream := rfl
@[simp] theorem State.withRunFault_runFault (s : State) (f : Option Fault) : (s.withRunFault f).runFault = f := rfl

@[simp] theorem State.withFreeStream_x (s : State) (k : Nat) : (s.withFreeStream k).x = s.x := rfl
@[simp] theorem State.withFreeStream_w (s : State) (k : Nat) : (s.withFreeStream k).w = s.w := rfl
@[simp] theorem State.withFreeStream_status (s : State) (k : Nat) : (s.withFreeStream k).status = s.status := rfl
@[simp] theorem State.withFreeStream_phase (s : State) (k : Nat) : (s.withFreeStream k).phase = s.phase := rfl
@[simp] theorem State.withFreeStream_pending (s : State) (k : Nat) : (s.withFreeStream k).pending = s.pending := rfl
@[simp] theorem State.withFreeStream_answers (s : State) (k : Nat) : (s.withFreeStream k).answers = s.answers := rfl
@[simp] theorem State.withFreeStream_accessNo (s : State) (k : Nat) : (s.withFreeStream k).accessNo = s.accessNo := rfl
@[simp] theorem State.withFreeStream_runFault (s : State) (k : Nat) : (s.withFreeStream k).runFault = s.runFault := rfl
@[simp] theorem State.withFreeStream_freeStream (s : State) (k : Nat) : (s.withFreeStream k).freeStream = k := rfl

@[simp] theorem State.pushAnswer_x (s : State) (v : Limb) : (s.pushAnswer v).x = s.x := rfl
@[simp] theorem State.pushAnswer_w (s : State) (v : Limb) : (s.pushAnswer v).w = s.w := rfl
@[simp] theorem State.pushAnswer_status (s : State) (v : Limb) : (s.pushAnswer v).status = s.status := rfl
@[simp] theorem State.pushAnswer_phase (s : State) (v : Limb) : (s.pushAnswer v).phase = s.phase := rfl
@[simp] theorem State.pushAnswer_pending (s : State) (v : Limb) : (s.pushAnswer v).pending = s.pending := rfl
@[simp] theorem State.pushAnswer_answers (s : State) (v : Limb) : (s.pushAnswer v).answers = v :: s.answers := rfl
@[simp] theorem State.pushAnswer_accessNo (s : State) (v : Limb) : (s.pushAnswer v).accessNo = s.accessNo := rfl
@[simp] theorem State.pushAnswer_freeStream (s : State) (v : Limb) : (s.pushAnswer v).freeStream = s.freeStream := rfl
@[simp] theorem State.pushAnswer_runFault (s : State) (v : Limb) : (s.pushAnswer v).runFault = s.runFault := rfl

@[simp] theorem State.nextAccess_x (s : State) : (s.nextAccess).x = s.x := rfl
@[simp] theorem State.nextAccess_w (s : State) : (s.nextAccess).w = s.w := rfl
@[simp] theorem State.nextAccess_status (s : State) : (s.nextAccess).status = s.status := rfl
@[simp] theorem State.nextAccess_phase (s : State) : (s.nextAccess).phase = s.phase := rfl
@[simp] theorem State.nextAccess_pending (s : State) : (s.nextAccess).pending = s.pending := rfl
@[simp] theorem State.nextAccess_answers (s : State) : (s.nextAccess).answers = s.answers := rfl
@[simp] theorem State.nextAccess_accessNo (s : State) : (s.nextAccess).accessNo = s.accessNo + 1 := rfl
@[simp] theorem State.nextAccess_freeStream (s : State) : (s.nextAccess).freeStream = s.freeStream := rfl
@[simp] theorem State.nextAccess_runFault (s : State) : (s.nextAccess).runFault = s.runFault := rfl

@[simp] theorem State.applyReset_x (s : State) : (s.applyReset).x = Vector.replicate 8 XRegister.afterReset := rfl
@[simp] theorem State.applyReset_w (s : State) : (s.applyReset).w = Vector.replicate 4 WRegister.afterReset := rfl
@[simp] theorem State.applyReset_status (s : State) : (s.applyReset).status = Status.afterReset := rfl
@[simp] theorem State.applyReset_phase (s : State) : (s.applyReset).phase = s.phase := rfl
@[simp] theorem State.applyReset_pending (s : State) : (s.applyReset).pending = s.pending := rfl
@[simp] theorem State.applyReset_answers (s : State) : (s.applyReset).answers = s.answers := rfl
@[simp] theorem State.applyReset_accessNo (s : State) : (s.applyReset).accessNo = s.accessNo := rfl
@[simp] theorem State.applyReset_freeStream (s : State) : (s.applyReset).freeStream = s.freeStream := rfl
@[simp] theorem State.applyReset_runFault (s : State) : (s.applyReset).runFault = s.runFault := rfl

@[simp] theorem State.raiseIllegalCommand_x (s : State) (v : BitVec 64) : (s.raiseIllegalCommand v).x = s.x := rfl
@[simp] theorem State.raiseIllegalCommand_w (s : State) (v : BitVec 64) : (s.raiseIllegalCommand v).w = s.w := rfl
@[simp] theorem State.raiseIllegalCommand_status (s : State) (v : BitVec 64) :
    (s.raiseIllegalCommand v).status = { s.status with ill := true } := rfl
@[simp] theorem State.raiseIllegalCommand_phase (s : State) (v : BitVec 64) :
    (s.raiseIllegalCommand v).phase = s.phase := rfl
@[simp] theorem State.raiseIllegalCommand_pending (s : State) (v : BitVec 64) :
    (s.raiseIllegalCommand v).pending = s.pending := rfl
@[simp] theorem State.raiseIllegalCommand_answers (s : State) (v : BitVec 64) :
    (s.raiseIllegalCommand v).answers = s.answers := rfl
@[simp] theorem State.raiseIllegalCommand_accessNo (s : State) (v : BitVec 64) :
    (s.raiseIllegalCommand v).accessNo = s.accessNo := rfl
@[simp] theorem State.raiseIllegalCommand_freeStream (s : State) (v : BitVec 64) :
    (s.raiseIllegalCommand v).freeStream = s.freeStream := rfl
@[simp] theorem State.raiseIllegalCommand_runFault (s : State) (v : BitVec 64) :
    (s.raiseIllegalCommand v).runFault = s.runFault := rfl

@[simp] theorem State.clearEvents_x (s : State) (v : Limb) : (s.clearEvents v).x = s.x := rfl
@[simp] theorem State.clearEvents_w (s : State) (v : Limb) : (s.clearEvents v).w = s.w := rfl
@[simp] theorem State.clearEvents_status (s : State) (v : Limb) :
    (s.clearEvents v).status = { s.status with dom := s.status.dom && !v.getLsbD 2, ill := s.status.ill && !v.getLsbD 3 } := rfl
@[simp] theorem State.clearEvents_phase (s : State) (v : Limb) : (s.clearEvents v).phase = s.phase := rfl
@[simp] theorem State.clearEvents_pending (s : State) (v : Limb) : (s.clearEvents v).pending = s.pending := rfl
@[simp] theorem State.clearEvents_answers (s : State) (v : Limb) : (s.clearEvents v).answers = s.answers := rfl
@[simp] theorem State.clearEvents_accessNo (s : State) (v : Limb) : (s.clearEvents v).accessNo = s.accessNo := rfl
@[simp] theorem State.clearEvents_freeStream (s : State) (v : Limb) : (s.clearEvents v).freeStream = s.freeStream := rfl
@[simp] theorem State.clearEvents_runFault (s : State) (v : Limb) : (s.clearEvents v).runFault = s.runFault := rfl

@[simp] theorem State.setCmp_x (s : State) (r : Comparison) : (s.setCmp r).x = s.x := rfl
@[simp] theorem State.setCmp_w (s : State) (r : Comparison) : (s.setCmp r).w = s.w := rfl
@[simp] theorem State.setCmp_status (s : State) (r : Comparison) :
    (s.setCmp r).status = { s.status with cmp := cmpFieldOf r } := rfl
@[simp] theorem State.setCmp_phase (s : State) (r : Comparison) : (s.setCmp r).phase = s.phase := rfl
@[simp] theorem State.setCmp_pending (s : State) (r : Comparison) : (s.setCmp r).pending = s.pending := rfl
@[simp] theorem State.setCmp_answers (s : State) (r : Comparison) : (s.setCmp r).answers = s.answers := rfl
@[simp] theorem State.setCmp_accessNo (s : State) (r : Comparison) : (s.setCmp r).accessNo = s.accessNo := rfl
@[simp] theorem State.setCmp_freeStream (s : State) (r : Comparison) : (s.setCmp r).freeStream = s.freeStream := rfl
@[simp] theorem State.setCmp_runFault (s : State) (r : Comparison) : (s.setCmp r).runFault = s.runFault := rfl

@[simp] theorem State.reportDomain_x (s : State) (v : Limb128) : (s.reportDomain v).x = s.x := rfl
@[simp] theorem State.reportDomain_w (s : State) (v : Limb128) : (s.reportDomain v).w = s.w := rfl
@[simp] theorem State.reportDomain_status (s : State) (v : Limb128) :
    (s.reportDomain v).status = { s.status with dom := s.status.dom || outsideDomain v } := rfl
@[simp] theorem State.reportDomain_phase (s : State) (v : Limb128) : (s.reportDomain v).phase = s.phase := rfl
@[simp] theorem State.reportDomain_pending (s : State) (v : Limb128) : (s.reportDomain v).pending = s.pending := rfl
@[simp] theorem State.reportDomain_answers (s : State) (v : Limb128) : (s.reportDomain v).answers = s.answers := rfl
@[simp] theorem State.reportDomain_accessNo (s : State) (v : Limb128) :
    (s.reportDomain v).accessNo = s.accessNo := rfl
@[simp] theorem State.reportDomain_freeStream (s : State) (v : Limb128) :
    (s.reportDomain v).freeStream = s.freeStream := rfl
@[simp] theorem State.reportDomain_runFault (s : State) (v : Limb128) :
    (s.reportDomain v).runFault = s.runFault := rfl

end Sys2Proof.Machine
end

