-- ==== Sys2Proof/Laws/Ops.lean ====
section
/-! SUPPORT. The shared operations over the registers: what each can do, said once. -/

namespace Sys2Proof.Machine

/-! ### The register files -/

@[simp] theorem State.xReg_withX_same (s : State) (i : BitVec 3) (r : XRegister) : (s.withX i r).xReg i = r := by
  simp [State.xReg]

theorem State.xReg_withX_ne (s : State) {i j : BitVec 3} (h : j ≠ i) (r : XRegister) :
    (s.withX i r).xReg j = s.xReg j := by
  have hn : i.toNat ≠ j.toNat := fun e => h (BitVec.eq_of_toNat_eq e.symm)
  simp [State.xReg, hn]

@[simp] theorem State.wReg_withX (s : State) (i : BitVec 3) (r : XRegister) (j : BitVec 2) :
    (s.withX i r).wReg j = s.wReg j := rfl

@[simp] theorem State.wReg_withW_same (s : State) (j : BitVec 2) (r : WRegister) : (s.withW j r).wReg j = r := by
  simp [State.wReg]

theorem State.wReg_withW_ne (s : State) {i j : BitVec 2} (h : j ≠ i) (r : WRegister) :
    (s.withW i r).wReg j = s.wReg j := by
  have hn : i.toNat ≠ j.toNat := fun e => h (BitVec.eq_of_toNat_eq e.symm)
  simp [State.wReg, hn]

@[simp] theorem State.xReg_withW (s : State) (j : BitVec 2) (r : WRegister) (i : BitVec 3) :
    (s.withW j r).xReg i = s.xReg i := rfl

/-- Two states with the same register files have the same limbs. -/
theorem State.cell_congr {s t : State} (hx : t.x = s.x) (hw : t.w = s.w) (n : LimbName) : t.cell n = s.cell n := by
  rcases n with ⟨i, l⟩ | ⟨j, k⟩
  · cases l <;> simp [State.cell, State.xReg, hx]
  · simp [State.cell, State.wReg, hw]

/-- What a read of a limb returns depends on the limb, on the access number and on the stream of free values only. -/
theorem State.readLimb_congr {s t : State} {n : LimbName} (h : t.cell n = s.cell n) (ha : t.accessNo = s.accessNo)
    (hf : t.freeStream = s.freeStream) (p : Config.ReadPort) : t.readLimb p n = s.readLimb p n := by
  unfold State.readLimb State.isWritten
  rw [h, ha, hf]

/-- A written limb reads as its value. -/
theorem State.readLimb_of_written {s : State} {n : LimbName} (h : s.isWritten n = true) (p : Config.ReadPort) :
    s.readLimb p n = (s.cell n).value := by
  simp [State.readLimb, h]

/-! ### The run's record of a read -/

/-- All that recording a read can do: it keeps the state, or writes the run's fault where there was none. -/
theorem State.noteLimb_cases (s : State) (n : LimbName) :
    s.noteLimb n = s ∨
    (s.runFault = none ∧ s.isWritten n = false ∧ s.noteLimb n = s.withRunFault (some (.readBeforeWrite n))) := by
  unfold State.noteLimb
  split
  · exact .inl rfl
  · by_cases h : s.isWritten n = true
    · simp [h]
    · simp_all

/-- A read of a written limb records nothing. -/
theorem State.noteLimb_of_written {s : State} {n : LimbName} (h : s.isWritten n = true) : s.noteLimb n = s := by
  unfold State.noteLimb
  split
  · rfl
  · simp [h]

/-- Recording a read changes no field but the record. -/
theorem State.noteLimb_frame (s : State) (n : LimbName) : ∃ f, s.noteLimb n = s.withRunFault f := by
  rcases s.noteLimb_cases n with h | ⟨-, -, h⟩
  · exact ⟨s.runFault, h⟩
  · exact ⟨_, h⟩

@[simp] theorem State.noteLimb_x (s : State) (n : LimbName) : (s.noteLimb n).x = s.x := by
  obtain ⟨f, h⟩ := s.noteLimb_frame n
  simp [h]

@[simp] theorem State.noteLimb_w (s : State) (n : LimbName) : (s.noteLimb n).w = s.w := by
  obtain ⟨f, h⟩ := s.noteLimb_frame n
  simp [h]

@[simp] theorem State.noteLimb_status (s : State) (n : LimbName) : (s.noteLimb n).status = s.status := by
  obtain ⟨f, h⟩ := s.noteLimb_frame n
  simp [h]

@[simp] theorem State.noteLimb_phase (s : State) (n : LimbName) : (s.noteLimb n).phase = s.phase := by
  obtain ⟨f, h⟩ := s.noteLimb_frame n
  simp [h]

@[simp] theorem State.noteLimb_pending (s : State) (n : LimbName) : (s.noteLimb n).pending = s.pending := by
  obtain ⟨f, h⟩ := s.noteLimb_frame n
  simp [h]

@[simp] theorem State.noteLimb_answers (s : State) (n : LimbName) : (s.noteLimb n).answers = s.answers := by
  obtain ⟨f, h⟩ := s.noteLimb_frame n
  simp [h]

@[simp] theorem State.noteLimb_accessNo (s : State) (n : LimbName) : (s.noteLimb n).accessNo = s.accessNo := by
  obtain ⟨f, h⟩ := s.noteLimb_frame n
  simp [h]

@[simp] theorem State.noteLimb_freeStream (s : State) (n : LimbName) : (s.noteLimb n).freeStream = s.freeStream := by
  obtain ⟨f, h⟩ := s.noteLimb_frame n
  simp [h]

@[simp] theorem State.noteLimb_cell (s : State) (n m : LimbName) : (s.noteLimb n).cell m = s.cell m :=
  State.cell_congr (by simp) (by simp) m

@[simp] theorem State.noteLimb_isWritten (s : State) (n m : LimbName) : (s.noteLimb n).isWritten m = s.isWritten m := by
  simp [State.isWritten]

/-- Recording a read of a whole X register changes no field but the record. -/
theorem State.noteX_frame (s : State) (i : BitVec 3) : ∃ f, s.noteX i = s.withRunFault f := by
  obtain ⟨f, hf⟩ := s.noteLimb_frame (.x i .lo)
  obtain ⟨g, hg⟩ := (s.noteLimb (.x i .lo)).noteLimb_frame (.x i .hi)
  exact ⟨g, by rw [State.noteX, hg, hf]; rfl⟩

/-- Recording a read of a whole W register changes no field but the record. -/
theorem State.noteW_frame (s : State) (j : BitVec 2) : ∃ f, s.noteW j = s.withRunFault f := by
  unfold State.noteW
  obtain ⟨a, ha⟩ := s.noteLimb_frame (.w j 0)
  obtain ⟨b, hb⟩ := (s.withRunFault a).noteLimb_frame (.w j 1)
  obtain ⟨c, hc⟩ := ((s.withRunFault a).withRunFault b).noteLimb_frame (.w j 2)
  obtain ⟨d, hd⟩ := (((s.withRunFault a).withRunFault b).withRunFault c).noteLimb_frame (.w j 3)
  exact ⟨d, by rw [ha, hb, hc, hd]; rfl⟩

/-- Recording a read takes the limb off the front of the limbs to be read. -/
theorem recordAfter_noteLimb (s : State) (n : LimbName) (ns : List LimbName) :
    recordAfter (s.noteLimb n) ns = recordAfter s (n :: ns) := by
  unfold recordAfter State.noteLimb
  cases hr : s.runFault with
  | some f => simp [hr]
  | none => by_cases hw : s.isWritten n = true <;> simp [hr, hw]

/-! ### Writing a limb (R32, R33, R63) -/

theorem State.writeLimb_cell_same (s : State) (n : LimbName) (v : Limb) : (s.writeLimb n v).cell n = ⟨v, true⟩ := by
  rcases n with ⟨i, l⟩ | ⟨j, k⟩
  · cases l <;> simp [State.writeLimb, State.cell]
  · simp [State.writeLimb, State.cell]

theorem State.writeLimb_cell_ne (s : State) {n m : LimbName} (h : m ≠ n) (v : Limb) :
    (s.writeLimb n v).cell m = s.cell m := by
  rcases n with ⟨i, l⟩ | ⟨j, k⟩ <;> rcases m with ⟨i', l'⟩ | ⟨j', k'⟩
  · by_cases hi : i' = i
    · subst hi
      cases l <;> cases l' <;> simp_all [State.writeLimb, State.cell]
    · cases l <;> cases l' <;> simp [State.writeLimb, State.cell, State.xReg_withX_ne _ hi]
  · cases l <;> simp [State.writeLimb, State.cell]
  · cases l' <;> simp [State.writeLimb, State.cell]
  · by_cases hj : j' = j
    · subst hj
      have hk : k.toNat ≠ k'.toNat := fun e => h (by rw [BitVec.eq_of_toNat_eq e])
      simp [State.writeLimb, State.cell, hk]
    · simp [State.writeLimb, State.cell, State.wReg_withW_ne _ hj]

/-- Writing a limb keeps the canonical form. -/
theorem State.writeLimb_canonical {s : State} (h : s.Canonical) (n : LimbName) (v : Limb) :
    (s.writeLimb n v).Canonical := by
  intro m hm
  by_cases e : m = n
  · subst e
    simp [State.isWritten, State.writeLimb_cell_same] at hm
  · rw [State.writeLimb_cell_ne s e]
    apply h
    simpa [State.isWritten, State.writeLimb_cell_ne s e] using hm

/-! ### Writing a whole register -/

theorem State.writeX_cell_lo (s : State) (i : BitVec 3) (v : Limb128) :
    (s.writeX i v).cell (.x i .lo) = ⟨lo128 v, true⟩ := by
  simp [State.writeX, State.cell]

theorem State.writeX_cell_hi (s : State) (i : BitVec 3) (v : Limb128) :
    (s.writeX i v).cell (.x i .hi) = ⟨hi128 v, true⟩ := by
  simp [State.writeX, State.cell]

theorem State.writeX_cell_ne (s : State) {i : BitVec 3} {n : LimbName} (h : n ∉ xLimbs i) (v : Limb128) :
    (s.writeX i v).cell n = s.cell n := by
  rcases n with ⟨i', l⟩ | ⟨j, k⟩
  · have hi : i' ≠ i := by
      rintro rfl
      cases l <;> simp [xLimbs] at h
    cases l <;> simp [State.writeX, State.cell, State.xReg_withX_ne _ hi]
  · simp [State.writeX, State.cell]

/-- After a command writes X[i], X[i] reads as the value written. -/
@[simp] theorem State.readX_writeX_same (s : State) (p : Config.ReadPort) (i : BitVec 3) (v : Limb128) :
    (s.writeX i v).readX p i = v := by
  simp [State.readX, State.readLimb, State.isWritten, State.writeX_cell_lo, State.writeX_cell_hi]

/-- A limb index of a W register is one of four. -/
theorem limbIndex_cases (k : BitVec 2) : k = 0 ∨ k = 1 ∨ k = 2 ∨ k = 3 := by
  revert k
  decide

/-- The four limbs of W[j], read back after a write. -/
theorem State.writeW_cell (s : State) (j : BitVec 2) (v : Limb256) (k : BitVec 2) :
    (s.writeW j v).cell (.w j k) = ⟨limb256 v k.toNat, true⟩ := by
  rcases limbIndex_cases k with rfl | rfl | rfl | rfl <;> simp [State.writeW, State.cell]

theorem State.writeW_cell_ne (s : State) {j : BitVec 2} {n : LimbName} (h : n ∉ wLimbs j) (v : Limb256) :
    (s.writeW j v).cell n = s.cell n := by
  rcases n with ⟨i, l⟩ | ⟨j', k⟩
  · cases l <;> simp [State.writeW, State.cell]
  · have hj : j' ≠ j := by
      rintro rfl
      rcases limbIndex_cases k with rfl | rfl | rfl | rfl <;> simp [wLimbs] at h
    simp [State.writeW, State.cell, State.wReg_withW_ne _ hj]

/-- After a command writes W[j], W[j] reads as the value written. -/
@[simp] theorem State.readW_writeW_same (s : State) (p : Config.ReadPort) (j : BitVec 2) (v : Limb256) :
    (s.writeW j v).readW p j = v := by
  simp [State.readW, State.readLimb, State.isWritten, State.writeW_cell]

/-- A register file written by a command keeps the canonical form. -/
theorem State.writeX_canonical {s : State} (h : s.Canonical) (i : BitVec 3) (v : Limb128) :
    (s.writeX i v).Canonical := by
  intro m hm
  by_cases e : m ∈ xLimbs i
  · rcases m with ⟨i', l⟩ | ⟨j, k⟩
    · cases l <;> simp [xLimbs] at e <;> subst e <;>
        simp [State.isWritten, State.writeX_cell_lo, State.writeX_cell_hi] at hm
    · simp [xLimbs] at e
  · rw [State.writeX_cell_ne s e]
    apply h
    simpa [State.isWritten, State.writeX_cell_ne s e] using hm

theorem State.writeW_canonical {s : State} (h : s.Canonical) (j : BitVec 2) (v : Limb256) :
    (s.writeW j v).Canonical := by
  intro m hm
  by_cases e : m ∈ wLimbs j
  · rcases m with ⟨i, l⟩ | ⟨j', k⟩
    · simp [wLimbs] at e
    · have hj : j' = j := by
        simp only [wLimbs, List.mem_cons, LimbName.w.injEq, List.not_mem_nil, or_false] at e
        rcases e with e | e | e | e <;> exact e.1
      subst hj
      simp [State.isWritten, State.writeW_cell] at hm
  · rw [State.writeW_cell_ne s e]
    apply h
    simpa [State.isWritten, State.writeW_cell_ne s e] using hm

end Sys2Proof.Machine
end

