-- ==== Sys2Proof/Laws/Window.lean ====
section
/-! SUPPORT. The window map and the step: which register stands at an offset, when an access is performed, and what the
step then is. -/

namespace Sys2Proof.Machine

/-! ### The window map (R61) -/

/-- A limb stands at its own offset, 8-byte aligned, below 0x100. -/
theorem windowReg_offset (n : LimbName) : windowReg n.offset = .limb n ∧ n.offset % 8 = 0 ∧ n.offset < 0x100 := by
  rcases n with ⟨i, l⟩ | ⟨j, k⟩
  · cases l
    · revert i
      decide
    · revert i
      decide
  · revert j k
    decide

theorem windowReg_status_iff (off : Nat) : windowReg off = .status ↔ off = 0x100 := by
  constructor
  · intro h
    unfold windowReg at h
    split_ifs at h
    all_goals simp_all
  · rintro rfl
    decide

theorem windowReg_cmd_iff (off : Nat) : windowReg off = .cmd ↔ off = 0x108 := by
  constructor
  · intro h
    unfold windowReg at h
    split_ifs at h
    all_goals simp_all
  · rintro rfl
    decide

/-! ### Accesses -/

/-- An access is performed exactly when the block is running and the access is supported (R64, R290). -/
theorem accessRefusal_eq_none_iff (p : Phase) (width off : Nat) :
    accessRefusal p width off = none ↔ p = .running ∧ width = 64 ∧ off < 0x1000 ∧ off % 8 = 0 := by
  cases p <;> simp [accessRefusal, unsupportedAccess, Config.accessBits, Config.windowBytes]
  split_ifs <;> simp_all

/-- Recording a host read changes no field but the record. -/
theorem noteHostRead_frame (off : Nat) (s : State) : ∃ f, noteHostRead off s = s.withRunFault f := by
  unfold noteHostRead
  split
  · exact s.noteLimb_frame _
  all_goals exact ⟨s.runFault, rfl⟩

theorem step_of_read {s : State} {off : Nat} {es : List HostEvent} (h : s.phase = .running)
    (hp : s.pending = .read 64 off :: es) (h8 : off % 8 = 0) (hl : off < 0x1000) :
    step s = .next ((noteHostRead off (s.withPending es).nextAccess).pushAnswer
      (hostRead off (s.withPending es).nextAccess)) := by
  have ha : accessRefusal s.phase 64 off = none := (accessRefusal_eq_none_iff _ _ _).2 ⟨h, rfl, hl, h8⟩
  simp [step, nextEvent, hp, perform, ha]

theorem step_of_write {s : State} {off : Nat} {v : Limb} {es : List HostEvent} (h : s.phase = .running)
    (hp : s.pending = .write 64 off v :: es) (h8 : off % 8 = 0) (hl : off < 0x1000) :
    step s = hostWrite off v (s.withPending es).nextAccess := by
  have ha : accessRefusal s.phase 64 off = none := (accessRefusal_eq_none_iff _ _ _).2 ⟨h, rfl, hl, h8⟩
  simp [step, nextEvent, hp, perform, ha]

end Sys2Proof.Machine
end

