-- ==== Sys2Proof/Laws/Platform.lean ====
section
/-! SUPPORT. The platform's shared operations: to which instance an address goes, and what delivering an event can do. -/

namespace Sys2Proof.Machine

theorem Instance.covers_iff (inst : Instance) (addr : Nat) :
    inst.covers addr = true ↔ inst.base ≤ addr ∧ addr < inst.base + 4096 :=
  decide_eq_true_iff

/-- An address goes to an instance that there is and whose window holds it, at its offset there (R60). -/
theorem Platform.route_eq_some {p : Platform} {addr k : Nat} (h : p.route addr = some k) :
    ∃ inst, p.instances[k]? = some inst ∧ inst.base ≤ addr ∧ addr < inst.base + 4096 ∧
      p.offsetIn k addr = addr - inst.base := by
  obtain ⟨hk, hc, -⟩ := List.findIdx?_eq_some_iff_getElem.1 h
  exact ⟨p.instances[k], by simp [hk], ((p.instances[k].covers_iff addr).1 hc).1,
    ((p.instances[k].covers_iff addr).1 hc).2, by simp [Platform.offsetIn, hk]⟩

/-- All that delivering an event can do where it answers a next platform: instance k, if there is one, performs it, and
every other instance, the bases and the agents are as they were (R46). -/
theorem Platform.deliver_cases {p q : Platform} {k : Nat} {e : HostEvent} (h : p.deliver k e = .next q) :
    (p.instances[k]? = none ∧ q = p) ∨
    ∃ inst c, p.instances[k]? = some inst ∧ perform e inst.core.nextAccess = .next c ∧
      q = { p with instances := p.instances.set k { inst with core := c } } := by
  unfold Platform.deliver at h
  split at h
  · next hn => exact .inl ⟨hn, by simpa using h.symm⟩
  · next inst hi =>
    split at h
    · next c hc => exact .inr ⟨inst, c, hi, hc, by simpa using h.symm⟩
    · cases h
    · cases h

end Sys2Proof.Machine
end

