-- ==== Sys2Proof/Machine/Driver.lean ====
section
/-! DEFINITION. The source's test driver as the host's sequence of accesses (spec/46_llstep.md R225). It is no unit of
the block (spec/00_scope.md R8); it stands here as what a host puts in State.pending. -/

namespace Sys2Proof.Machine

/-- The 128 CMD writes and the one read of STATUS (R225, R297): ldi x0, 4; 125 times lls x0, x0; ldi x1, 0;
cmp x0, x1. -/
def hostDriver : List HostEvent :=
  [cmdWrite (encode (.ldi 0 4))] ++ List.replicate Config.driverIterations (cmdWrite (encode (.lls 0 0)))
    ++ [cmdWrite (encode (.ldi 1 0)), cmdWrite (encode (.cmp 0 1)), .read Config.accessBits 0x100]

/-- What the host concludes from the STATUS it read: `HostRead(0x100)[1:0] == 0b10` (R225). -/
def driverVerdict (status : Limb) : Bool := status.extractLsb' 0 2 == CmpField.bits .equal

end Sys2Proof.Machine
end

