-- ==== Sys2Proof/Tests/Slice0.lean ====
section
/-! SUPPORT. The model's own tests. Expected values are those of spec/95_test_vectors.md and of the examples of the
rules, or worked by hand from the encoding tables; each test names its source. -/

namespace Sys2Proof.Tests

open Sys2Proof.Machine

/-! ### Small states -/

/-- Reset, with one X register written. -/
def withX (i : BitVec 3) (v : Limb128) : State := State.reset.writeX i v

/-- Reset, with two X registers written. -/
def withXX (i j : BitVec 3) (v w : Limb128) : State := (State.reset.writeX i v).writeX j w

/-- Reset, with one W register written. -/
def withW (j : BitVec 2) (v : Limb256) : State := State.reset.writeW j v

/-- Reset, with the host's events to come. -/
def hostDoes (es : List HostEvent) : State := State.reset.withPending es

/-- The state after a command. -/
def after (i : Instr) (s : State) : State :=
  match exec i s with
  | .next t => t
  | .fault _ => State.reset
  | .refused _ => State.reset

/-- The state after one step. -/
def afterStep (s : State) : State :=
  match step s with
  | .next t => t
  | .fault _ => State.reset
  | .refused _ => State.reset

/-- The outcome is a next state. -/
def isNext (o : Host.Outcome State Fault Refusal) : Bool :=
  match o with
  | .next _ => true
  | .fault _ => false
  | .refused _ => false

/-- The decoder's refusal, if it refuses. -/
def illegalName (v : BitVec 64) : Option Illegal :=
  match decode v with
  | .ok _ => none
  | .error e => some e

/-! ### Well-formedness: one ill-formed term for each W field (R94) -/

theorem test_wf_sqr_rd : ¬ (Instr.sqr 4 1).WellFormed := by decide
theorem test_wf_subw_rd : ¬ (Instr.subw 4 0 0).WellFormed := by decide
theorem test_wf_subw_ra : ¬ (Instr.subw 0 5 0).WellFormed := by decide
theorem test_wf_subwi_rd : ¬ (Instr.subwi 6 0 2).WellFormed := by decide
theorem test_wf_subwi_ra : ¬ (Instr.subwi 0 7 2).WellFormed := by decide
theorem test_wf_red_ra : ¬ (Instr.red 2 4).WellFormed := by decide
theorem test_wf_legal_fields : (Instr.subw 3 2 7).WellFormed ∧ (Instr.red 7 3).WellFormed := by decide

/-! ### Decoding: one word for each command, written bit by bit from R91 and R92 (OP RD RA RB SA SB 0, OP RD RA IMM) -/

theorem test_decode_nop : decode 0b00000000000000000000000000000000 = .ok .nop := by decide
theorem test_decode_add : decode 0b0001_010_001_011_0_0_00000000000000000 = .ok (.add 2 1 3) := by decide
theorem test_decode_sub : decode 0b0010_011_001_010_0_0_00000000000000000 = .ok (.sub 3 1 2) := by decide
theorem test_decode_cmp : decode 0b0011_000_010_011_0_0_00000000000000000 = .ok (.cmp 2 3) := by decide
theorem test_decode_mulw : decode 0b0100_011_001_010_1_0_00000000000000000 = .ok (.mulw 3 1 2 .hi .lo) := by decide
theorem test_decode_mulw_sb : decode 0b0100_011_001_001_0_1_00000000000000000 = .ok (.mulw 3 1 1 .lo .hi) := by decide
theorem test_decode_sqr : decode 0b0101_010_101_000_0_0_00000000000000000 = .ok (.sqr 2 5) := by decide
theorem test_decode_subw : decode 0b0110_001_010_100_0_0_00000000000000000 = .ok (.subw 1 2 4) := by decide
theorem test_decode_subwi : decode 0b0111_010_001_000_000_1000000000000001 = .ok (.subwi 2 1 0x8001) := by decide
theorem test_decode_red : decode 0b1000_110_011_000_0_0_00000000000000000 = .ok (.red 6 3) := by decide
theorem test_decode_lls : decode 0b1001_011_001_000_0_0_00000000000000000 = .ok (.lls 3 1) := by decide
theorem test_decode_ldi : decode 0b1010_111_000_000_000_1111111111111111 = .ok (.ldi 7 0xFFFF) := by decide
theorem test_decode_ldm : decode 0b1011_101_000_000_0_0_00000000000000000 = .ok (.ldm 5) := by decide

/-- The illegal values of spec/95_test_vectors.md 2.10. -/
theorem test_decode_illegal_opcodes :
    illegalName 0xC0000000 = some .reservedOpcode ∧ illegalName 0xFFFFFFFF = some .reservedOpcode ∧
    illegalName 0x100000000 = some .highHalf ∧ illegalName 0x00000001 = some .nopNotZero := by decide

theorem test_decode_illegal_fields :
    illegalName 0x14480001 = some .reservedBit ∧ illegalName 0x32980000 = some .cmpRd ∧
    illegalName 0x44490000 = some .reservedBit ∧ illegalName 0x58400000 = some .wField ∧
    illegalName 0x68000000 = some .wField := by decide

theorem test_decode_illegal_unused :
    illegalName 0x70010002 = some .reservedBit ∧ illegalName 0x81000000 = some .wField ∧
    illegalName 0x90080000 = some .unusedRegisterField ∧ illegalName 0xA0400004 = some .unusedRegisterField ∧
    illegalName 0xBA000001 = some .reservedBit := by decide

/-- R104's words, encoded. -/
theorem test_encode_examples :
    encode (.mulw 3 1 2 .hi .lo) = 0x46540000 ∧ encode (.subw 1 0 4) = 0x62200000 ∧ encode (.ldi 1 0) = 0xA2000000 := by
  decide

theorem test_decode_table_word : decodeTableWord 32 0x9D400000 = some (.lls 6 5) := by decide

/-! ### The assembler (R101 to R103) -/

/-- `MULW x3, X1.hi ,x2.lo ; product`: case, blanks and a comment. -/
theorem test_assemble_mulw :
    assembleLine ['M', 'U', 'L', 'W', ' ', 'x', '3', ',', ' ', 'X', '1', '.', 'h', 'i', ' ', ',', 'x', '2', '.', 'l', 'o',
      ' ', ';', ' ', 'p'] = some [.mulw 3 1 2 .hi .lo] := by decide

/-- `subwi w0, w0, 0x2`. -/
theorem test_assemble_subwi :
    assembleLine ['s', 'u', 'b', 'w', 'i', ' ', 'w', '0', ',', ' ', 'w', '0', ',', ' ', '0', 'x', '2']
      = some [.subwi 0 0 2] := by decide

/-- `sqr x0, x1`: a register of the wrong file is rejected. -/
theorem test_assemble_wrong_file : assembleLine ['s', 'q', 'r', ' ', 'x', '0', ',', 'x', '1'] = none := by decide

/-- `ldi x0, 65536` is rejected, and 65535 is the largest immediate. -/
theorem test_assemble_immediate :
    assemble ['l', 'd', 'i'] [.x 0, .imm 65536] = none ∧
    assemble ['l', 'd', 'i'] [.x 0, .imm 65535] = some [.ldi 0 0xFFFF] := by decide

theorem test_assemble_tstz :
    assemble ['t', 's', 't', 'z'] [.x 2, .x 2] = none ∧
    assemble ['t', 's', 't', 'z'] [.x 2, .x 3] = some [.ldi 3 0, .cmp 2 3] := by decide

/-! ### The commands -/

/-- V-ADD-1, V-SRC-1. -/
theorem test_add_carry :
    (after (.add 2 1 1) (withX 1 0xFFFFFFFFFFFFFFFF)).readX .a 2 = 0x1FFFFFFFFFFFFFFFE#128 := by decide

/-- V-ADD-2, with the destination a source. -/
theorem test_add_wraps :
    (after (.add 1 1 3) (withXX 1 3 0xFFFFFFFFFFFFFFFFFFFFFFFFFFFFFFFF 1)).readX .a 1 = 0#128 := by decide

/-- V-SUB-2. -/
theorem test_sub_borrow :
    (after (.sub 3 1 2) (withXX 1 2 0x10000000000000000 1)).readX .a 3 = 0xFFFFFFFFFFFFFFFF#128 := by decide

/-- V-SUB-1: the operands are not swapped, and the result wraps. -/
theorem test_sub_wraps :
    (after (.sub 3 1 2) (withXX 1 2 0 1)).readX .a 3 = 0xFFFFFFFFFFFFFFFFFFFFFFFFFFFFFFFF#128 := by decide

/-- V-CMP-6: the low limb would say GREATER. -/
theorem test_cmp_less :
    hostRead 0x100 (after (.cmp 1 2) (withXX 1 2 0xFFFFFFFFFFFFFFFF 0x10000000000000000)) = 1#64 := by decide

/-- V-CMP-3, and V-CMP-4's EQUAL. -/
theorem test_cmp_greater_equal :
    (after (.cmp 1 2) (withXX 1 2 0x80000000000000000000000000000000 Config.m127)).status.cmp = .greater ∧
    (after (.cmp 2 2) (withX 2 Config.m127)).status.cmp = .equal := by decide

/-- V-MUL-6, on the limbs of X1 (P4). -/
theorem test_mulw_limbs :
    (after (.mulw 3 1 1 .lo .hi) (withX 1 0x123456789ABCDEF00FEDCBA987654321)).readX .a 3
      = 0x0121FA00AD77D7422236D88FE5618CF0#128 := by decide

/-- R44: only the selected limb is read; X1.hi is never-written and the run is not faulted; V-MUL-3. -/
theorem test_mulw_reads_selected :
    (after (.mulw 2 1 1 .lo .lo) (State.reset.writeLimb (.x 1 .lo) 0xFFFFFFFFFFFFFFFF)).runFault = none ∧
    (after (.mulw 2 1 1 .lo .lo) (State.reset.writeLimb (.x 1 .lo) 0xFFFFFFFFFFFFFFFF)).readX .a 2
      = 0xFFFFFFFFFFFFFFFE0000000000000001#128 := by decide

/-- V-SQR-11: every carry path. -/
theorem test_sqr_carries :
    (after (.sqr 3 1) (withX 1 0xEC148CB48E73CA47EA90A8F0D66B829E)).readW .a 3
      = 0xD9B5E5133031BA337B0F248DA9D782960AC2F63E02228B5FA25C33C69AB8D984#256 := by decide

/-- V-SQR-9 and V-SQR-11 by the limb procedure of R160. -/
theorem test_sqr_procedure :
    sqr128Limbs 0xFFFFFFFFFFFFFFFFFFFFFFFFFFFFFFFF
      = 0xFFFFFFFFFFFFFFFFFFFFFFFFFFFFFFFE00000000000000000000000000000001#256 ∧
    sqr128Limbs 0xEC148CB48E73CA47EA90A8F0D66B829E
      = 0xD9B5E5133031BA337B0F248DA9D782960AC2F63E02228B5FA25C33C69AB8D984#256 := by decide

/-- V-SUBS-5: the borrow crosses three limbs; X4.hi is not read. -/
theorem test_subw_borrow :
    (after (.subw 1 0 4) ((withW 0 0x1000000000000000000000000000000000000000000000000).writeLimb (.x 4 .lo) 1)).readW .a 1
      = 0xFFFFFFFFFFFFFFFFFFFFFFFFFFFFFFFFFFFFFFFFFFFFFFFF#256 := by decide

/-- V-SUBS-10: the largest immediate, zero-extended. -/
theorem test_subwi_wraps :
    (after (.subwi 2 2 0xFFFF) (withW 2 0)).readW .a 2
      = 0xFFFFFFFFFFFFFFFFFFFFFFFFFFFFFFFFFFFFFFFFFFFFFFFFFFFFFFFFFFFF0001#256 := by decide

/-- V-RED-11, where the second fold reaches 2^127, and V-RED-7. -/
theorem test_red_exact :
    (after (.red 1 0) (withW 0 0x400000000000000000000000000000007FFFFFFFFFFFFFFFFFFFFFFFFFFFFFFF)).readX .a 1 = 1#128 ∧
    red127 0xFFFFFFFFFFFFFFFFFFFFFFFFFFFFFFFE = 0#128 := by decide

/-- V-RED-14, V-RED-15 and V-RED-17: the inexact inputs of C1. -/
theorem test_red_inexact :
    red127 0x7FFFFFFFFFFFFFFFFFFFFFFFFFFFFFFFFFFFFFFFFFFFFFFFFFFFFFFFFFFFFFFF = 0x7FFFFFFFFFFFFFFFFFFFFFFFFFFFFFFE#128 ∧
    red127 0x8000000000000000000000000000000000000000000000000000000000000000 = 0#128 ∧
    red127 0xFFFFFFFFFFFFFFFFFFFFFFFFFFFFFFFFFFFFFFFFFFFFFFFFFFFFFFFFFFFFFFFE = 0x7FFFFFFFFFFFFFFFFFFFFFFFFFFFFFFD#128 := by
  decide

/-- V-LL-SEQ, s₆ to s₇: the first step that a reduction changes. -/
theorem test_lls_reduces :
    (after (.lls 0 0) (withX 0 0x0306F7B285EEAD7D8CC88407A9F4C002)).readX .a 0 = 0x6F90BE04448B1245AD3F06B65E5948EF#128 ∧
    (after (.lls 0 0) (withX 0 0x0306F7B285EEAD7D8CC88407A9F4C002)).status.dom = false := by decide

/-- V-LLS-12, outside the domain. -/
theorem test_lls_outside_domain :
    (after (.lls 3 1) (withX 1 0xFFFFFFFFFFFFFFFFFFFFFFFFFFFFFFFF)).readX .a 3 = 0x7FFFFFFFFFFFFFFFFFFFFFFFFFFFFFFA#128 ∧
    (after (.lls 3 1) (withX 1 0xFFFFFFFFFFFFFFFFFFFFFFFFFFFFFFFF)).status.dom = true := by decide

/-- V-AUX-1: nothing changes. -/
theorem test_nop : after .nop (withX 1 5) = withX 1 5 := by decide

/-- V-AUX-3: zero-extended. -/
theorem test_ldi : (after (.ldi 7 0xFFFF) State.reset).readX .a 7 = 0xFFFF#128 := by decide

/-- V-AUX-5, V-SRC-3. -/
theorem test_ldm : (after (.ldm 5) State.reset).readX .a 5 = 0x7FFFFFFFFFFFFFFFFFFFFFFFFFFFFFFF#128 := by decide

/-! ### Reads of never-written limbs (R44, U1) -/

theorem test_read_before_write_recorded :
    (after (.add 0 1 2) (withX 1 5)).runFault = some (.readBeforeWrite (.x 2 .lo)) := by decide

theorem test_first_fault_kept :
    (after (.sqr 0 3) (after (.red 0 1) State.reset)).runFault = some (.readBeforeWrite (.w 1 0)) := by decide

/-! ### The host window -/

/-- P5's STATUS 0xD: ILL, DOM and LESS. -/
theorem test_status_word : statusWord ⟨.less, true, true⟩ = 0xD#64 := by decide

/-- P5's writes: 0x4 clears DOM alone, and the compare result stays. -/
theorem test_status_write_one_to_clear :
    (afterStep ((hostDoes [.write 64 0x100 0x4]).withStatus ⟨.less, true, true⟩)).status = ⟨.less, false, true⟩ := by decide

/-- R61: X7.hi is at 0x078, W3.limb3 at 0x0F8 and W1.limb2 at 0x0B0. -/
theorem test_window_map :
    windowReg 0x078 = .limb (.x 7 .hi) ∧ windowReg 0x0F8 = .limb (.w 3 3) ∧ windowReg 0x0B0 = .limb (.w 1 2) ∧
    windowReg 0x080 = .limb (.w 0 0) ∧ windowReg 0x120 = .reserved := by decide

/-- R65: byte 0 of a limb is its least significant byte. -/
theorem test_bus_bytes :
    busByte 0x0102030405060708 0 = 8 ∧ busByte 0x0102030405060708 7 = 1 ∧
    limbOfBytes (busBytes 0x0102030405060708) = 0x0102030405060708 := by decide

/-- R67: `ldi x0, 4` through CMD as the first event after reset. -/
theorem test_step_executes :
    (afterStep (State.reset.withFetchWord 32 0xA0000004)).readX .a 0 = 4#128 ∧
    (afterStep (State.reset.withFetchWord 32 0xA0000004)).pending = [] := by decide

/-- R262: an illegal value sets ILL and writes nothing. -/
theorem test_step_illegal :
    (afterStep (hostDoes [.write 64 0x108 0x58400000])).status = ⟨.none, false, true⟩ ∧
    (afterStep (hostDoes [.write 64 0x108 0x58400000])).w = State.reset.w := by decide

/-- R225: 128 CMD writes and one read. -/
theorem test_driver_length : hostDriver.length = 129 ∧ driverVerdict 0x2 = true ∧ driverVerdict 0x1 = false :=
  ⟨by simp [hostDriver, Config.driverIterations], by decide, by decide⟩

/-- R60, R46: the second of two instances, at its own base. -/
theorem test_platform_routes :
    (Platform.atReset [0x10000, 0x20000] []).route 0x20108 = some 1 ∧
    (Platform.atReset [0x10000, 0x20000] []).offsetIn 1 0x20108 = 0x108 ∧
    (Platform.atReset [0x10000, 0x20000] []).route 0x21000 = none := by decide

/-! ### Witnesses: concrete states and operands that meet the statements' hypotheses -/

/-- DecodeEncodeRoundTrip. -/
theorem test_witness_well_formed : (Instr.subwi 3 3 0xFFFF).WellFormed ∧ (Instr.nop).WellFormed := by decide

/-- LegalValueIsItsEncoding, StepRunsDecodedCommand. -/
theorem test_witness_decodes :
    decode 0x1FF80000 = .ok (.add 7 7 7) ∧
    (hostDoes [.write 64 0x108 0x1FF80000]).phase = .running ∧
    (hostDoes [.write 64 0x108 0x1FF80000]).pending = [.write 64 0x108 0x1FF80000] := by decide

/-- LegalIffOneRowMatches: a word that matches a row. -/
theorem test_witness_row : (0x7000FFFF : CmdWord) &&& 0xF93F0000 = 0x70000000 := by decide

/-- ListedCasesAreIllegal: one value for each case, in the statement's order. -/
theorem test_witness_illegal_cases :
    ([0x100000000, 0xC0000000, 0x14480001, 0x58400000, 0x71000000, 0x32980000, 0xA0080004, 0x50080000, 0x00000001]
      : List (BitVec 64)).all (fun v => (illegalName v).isSome) = true := by decide

/-- SqrWritesExactSquare and its fellows: a well-formed and an ill-formed form. -/
theorem test_witness_both_forms :
    (Instr.sqr 3 1).WellFormed ∧ ¬ (Instr.sqr 4 1).WellFormed ∧ (Instr.red 1 3).WellFormed ∧
    ¬ (Instr.red 1 4).WellFormed ∧ (Instr.subw 0 3 1).WellFormed ∧ ¬ (Instr.subw 0 4 1).WellFormed ∧
    (Instr.subwi 3 0 1).WellFormed ∧ ¬ (Instr.subwi 4 0 1).WellFormed := by decide

/-- PseudoTstzTestsForZero: both cases. -/
theorem test_witness_tstz : (2 : BitVec 3) = 2 ∧ (3 : BitVec 3) ≠ 2 := by decide

/-- XCommandFrame: LLS and another command with an X destination run. -/
theorem test_witness_x_frame :
    xDest (.lls 3 1) = some 3 ∧ isNext (exec (.lls 3 1) (withX 1 4)) = true ∧
    xDest (.add 7 1 1) = some 7 ∧ isLls (.add 7 1 1) = false ∧ isNext (exec (.add 7 1 1) (withX 1 4)) = true := by decide

/-- WCommandFrame. -/
theorem test_witness_w_frame :
    wDest (.subwi 3 0 2) = some 3 ∧ isNext (exec (.subwi 3 0 2) (withW 0 16)) = true := by decide

/-- CmpFrame, CommandRecordsReadBeforeWrite, AluLaws: the commands run. -/
theorem test_witness_cmp_runs :
    isNext (exec (.cmp 1 2) (withXX 1 2 4 5)) = true ∧ isNext (exec (.add 0 1 2) State.reset) = true ∧
    isNext (exec (.sub 0 1 2) (withXX 1 2 4 5)) = true := by decide

/-- SquareBounds, ReducerRange, LlsComputesRecurrence, LlsOutsideDomain: both sides of M127, and the domain's ends. -/
theorem test_witness_domain_ends :
    ((withX 1 0x7FFFFFFFFFFFFFFFFFFFFFFFFFFFFFFE).readX .a 1).toNat < 2 ^ 127 - 1 ∧
    ((withX 1 0).readX .a 1).toNat < 2 ^ 127 - 1 ∧
    2 ^ 127 - 1 ≤ ((withX 1 0x7FFFFFFFFFFFFFFFFFFFFFFFFFFFFFFF).readX .a 1).toNat := by decide

/-- SecondFoldValue: both sides of 2^127, and the one input that reaches 2^127. -/
theorem test_witness_second_fold :
    2 ^ 127 ≤ (0x80000000000000000000000000000000#128).toNat ∧
    (0x7FFFFFFFFFFFFFFFFFFFFFFFFFFFFFFF#128).toNat < 2 ^ 127 ∧
    (secondFold 0xFFFFFFFFFFFFFFFFFFFFFFFFFFFFFFFF#128).toNat = 2 ^ 127 := by decide

/-- ReducerExactness: an input below 2^254, one with bit 255 set, one whose first fold carries, and s at the ends of
2 ≤ s < M127. -/
theorem test_witness_reducer_inputs :
    (0x3FFFFFFFFFFFFFFFFFFFFFFFFFFFFFFFFFFFFFFFFFFFFFFFFFFFFFFFFFFFFFFF#256).toNat < 2 ^ 254 ∧
    (0x8000000000000000000000000000000000000000000000000000000000000000#256).getLsbD 255 = true ∧
    2 ^ 128 ≤ (0x7FFFFFFFFFFFFFFFFFFFFFFFFFFFFFFFFFFFFFFFFFFFFFFFFFFFFFFFFFFFFFFF#256).toNat % 2 ^ 127
      + ((0x7FFFFFFFFFFFFFFFFFFFFFFFFFFFFFFFFFFFFFFFFFFFFFFFFFFFFFFFFFFFFFFF#256).toNat / 2 ^ 127) % 2 ^ 128 ∧
    2 ≤ (2#128).toNat ∧ (0x7FFFFFFFFFFFFFFFFFFFFFFFFFFFFFFE#128).toNat < 2 ^ 127 - 1 := by decide

/-- WideSubtractorLaws: x ≥ v, at equality, and x < v. -/
theorem test_witness_wide_subtractor :
    (2#64).toNat ≤ (2#256).toNat ∧ (1#256).toNat < (2#64).toNat := by decide

/-- MulwWritesExactProduct, SubwWritesDifferenceModulo, LlsWritesStepAndReportsDomain, HostAccessIdempotency: the limbs
that a command reads are written. -/
theorem test_witness_written :
    (withX 1 4).isWritten (.x 1 .lo) = true ∧ (withX 1 4).isWritten (.x 1 .hi) = true ∧
    (withX 1 4).allWritten (xLimbs 1) = true ∧ (withW 3 16).allWritten (wLimbs 3) = true ∧
    ((withW 3 16).writeLimb (.x 4 .lo) 1).isWritten (.x 4 .lo) = true := by decide

/-- ExplicitPipelineEqualsLls: a state ready for the LLS. -/
theorem test_witness_pipeline : (withX 1 4).ReadyFor (.lls 0 1) ∧ ¬ State.reset.ReadyFor (.lls 0 1) := by decide

/-- LlsIsPure: two different states with equal operands in different registers. -/
theorem test_witness_pure :
    (withX 1 4).readX .a 1 = (withXX 0 5 9 4).readX .a 5 ∧
    isNext (exec (.lls 0 1) (withX 1 4)) = true ∧ isNext (exec (.lls 2 5) (withXX 0 5 9 4)) = true := by decide

/-- IllegalValueSetsIllOnly. -/
theorem test_witness_illegal :
    illegalName 0xC0000000 = some .reservedOpcode ∧ (hostDoes [.write 64 0x108 0xC0000000]).phase = .running := by decide

/-- StepTakesOneEventInOrder: idle, and an event that completes with another behind it. -/
theorem test_witness_events :
    State.reset.pending = [] ∧ isNext (step (hostDoes [.read 64 0x100, .assertReset])) = true ∧
    (afterStep (hostDoes [.read 64 0x100, .assertReset])).pending = [.assertReset] := by decide

/-- HostReadReturnsWindow: each clause at the ends of its offsets; every one is aligned and in the window. -/
theorem test_witness_read_offsets :
    ([0x000, 0x070, 0x008, 0x078, 0x080, 0x0F8, 0x100, 0x108, 0x110, 0x118, 0x120, 0xFF8] : List Nat).all
      (fun off => off % 8 = 0 ∧ off < 0x1000 ∧ isNext (step (hostDoes [.read 64 off])) = true) = true ∧
    16 * (7 : BitVec 3).toNat = 0x070 ∧ 16 * (7 : BitVec 3).toNat + 8 = 0x078 ∧
    0x080 + 32 * (3 : BitVec 2).toNat + 8 * (3 : BitVec 2).toNat = 0x0F8 := by decide

/-- HostWriteChangesWindow, ModIsAlwaysM127: each clause at the ends of its offsets. -/
theorem test_witness_write_offsets :
    ([0x000, 0x078, 0x080, 0x0F8, 0x100, 0x108, 0x110, 0x118, 0x120, 0xFF8] : List Nat).all
      (fun off => isNext (step (hostDoes [.write 64 off 0xC])) = true) = true ∧
    LimbName.offset (.w 3 3) = 0x0F8 ∧ LimbName.offset (.x 7 .hi) = 0x078 := by decide

/-- HostAccessIdempotency: a written limb read twice, a limb written twice, and `lls x0, x0` issued twice, which takes
4 to 14 to 194 (V-LL-SEQ). -/
theorem test_witness_twice :
    (afterStep (afterStep ((withX 1 7).withPending [.read 64 0x10, .read 64 0x10]))).answers = [7, 7] ∧
    (withX 1 7).isWritten (.x 1 .lo) = true ∧
    isNext (step (afterStep (hostDoes [.write 64 0x10 5, .write 64 0x10 5]))) = true ∧
    (afterStep (afterStep ((withX 0 4).withPending
      [.write 64 0x108 0x90000000, .write 64 0x108 0x90000000]))).readX .a 0 = 194#128 := by decide

/-- NextReadSeesTheWrite: the hypotheses on limbs, for a limb write, for an ADD and for an SQR's top limb. -/
theorem test_witness_write_then_read :
    (hostDoes [.write 64 0x0F8 9, .read 64 0x0F8]).pending
      = [.write 64 (LimbName.offset (.w 3 3)) 9, .read 64 (LimbName.offset (.w 3 3))] ∧
    (hostDoes [.write 64 0x108 0x14480000, .read 64 0x20]).pending
      = [.write 64 0x108 (encode (.add 2 1 1)), .read 64 (16 * (2 : BitVec 3).toNat)] ∧
    (Instr.sqr 3 1).WellFormed ∧ LimbName.w 3 3 ∈ limbsWritten (.sqr 3 1) ∧
    (hostDoes [.write 64 0x108 0x56400000, .read 64 0x0F8]).pending
      = [.write 64 0x108 (encode (.sqr 3 1)), .read 64 (LimbName.offset (.w 3 3))] := by decide

/-- NextReadSeesTheWrite: a STATUS read after a STATUS write, after CMP, after LLS and after an illegal value (R35). -/
theorem test_witness_status_read_back :
    (afterStep (afterStep ((hostDoes [.write 64 0x100 0x4, .read 64 0x100]).withStatus ⟨.less, true, true⟩))).answers
      = [0x9] ∧
    (afterStep (afterStep ((withX 1 4).withPending
      [.write 64 0x108 (encode (.cmp 1 1)), .read 64 0x100]))).answers = [0x2] ∧
    (afterStep (afterStep ((withX 1 Config.m127).withPending
      [.write 64 0x108 (encode (.lls 3 1)), .read 64 0x100]))).answers = [0x4] ∧
    (afterStep (afterStep (hostDoes [.write 64 0x108 0xC0000000, .read 64 0x100]))).answers = [0x8] := by decide

/-- UnsupportedAccessIsRefused: each ground for refusal, and an access that is performed. -/
theorem test_witness_unsupported :
    isNext (step (hostDoes [.read 32 0x100])) = false ∧ isNext (step (hostDoes [.read 64 0x104])) = false ∧
    isNext (step (hostDoes [.write 64 0x1000 0])) = false ∧ isNext (step (hostDoes [.read 64 0xFF8])) = true := by decide

/-- ResetLeavesResetState: the first clause, from a state with a written register and an event set. -/
theorem test_witness_reset_and_release :
    (afterStep (((withX 1 4).withStatus ⟨.less, true, true⟩).withPending [.assertReset, .releaseReset])).phase = .inReset ∧
    (afterStep (afterStep (((withX 1 4).withStatus ⟨.less, true, true⟩).withPending
      [.assertReset, .releaseReset]))).phase = .running ∧
    (afterStep (afterStep (((withX 1 4).withStatus ⟨.less, true, true⟩).withPending
      [.assertReset, .releaseReset]))).status = ⟨.none, false, false⟩ ∧
    (afterStep (afterStep (((withX 1 4).withStatus ⟨.less, true, true⟩).withPending
      [.assertReset, .releaseReset]))).isWritten (.x 1 .lo) = false := by decide

/-- ResetLeavesResetState: the other clauses' hypotheses. -/
theorem test_witness_reset :
    (afterStep (hostDoes [.assertReset, .read 64 0x100])).phase = .inReset ∧
    (afterStep (hostDoes [.powerLoss, .read 64 0x100])).phase = .awaitingReset ∧
    isNext (step (afterStep (hostDoes [.assertReset, .read 64 0x100]))) = false ∧
    isNext (step (afterStep (hostDoes [.powerLoss, .read 64 0x100]))) = false ∧
    isNext (step (hostDoes [.resetDuringAccess])) = false := by decide

/-- OnlyTheseEventsChangeStatus: a step that changes CMP, one that sets DOM, one that clears DOM, one that sets ILL and
one that clears ILL. -/
theorem test_witness_status_changes :
    (afterStep ((withX 1 4).withPending [.write 64 0x108 0x30480000])).status = ⟨.equal, false, false⟩ ∧
    (afterStep ((withX 1 Config.m127).withPending [.write 64 0x108 0x96400000])).status = ⟨.none, true, false⟩ ∧
    (afterStep ((hostDoes [.write 64 0x100 0x4]).withStatus ⟨.none, true, true⟩)).status = ⟨.none, false, true⟩ ∧
    (afterStep (hostDoes [.write 64 0x108 0xC0000000])).status = ⟨.none, false, true⟩ ∧
    (afterStep ((hostDoes [.write 64 0x100 0x8]).withStatus ⟨.none, true, true⟩)).status = ⟨.none, true, false⟩ := by decide

/-- OneEventPerCmdWrite, EveryCommandCompletes: a legal CMD write and an illegal one complete. -/
theorem test_witness_cmd_writes :
    isNext (step (hostDoes [.write 64 0x108 0x96400000])) = true ∧
    isNext (step (hostDoes [.write 64 0x108 0xFFFFFFFFFFFFFFFF])) = true := by decide

/-- StepKeepsCanonicalForm, WrittenLimbStaysWritten: a canonical state with a written limb, and a step from it. -/
theorem test_witness_canonical :
    (withX 1 4).Canonical ∧ (withX 1 4).isWritten (.x 1 .hi) = true ∧
    isNext (step ((withX 1 4).withPending [.write 64 0x108 0x50400000])) = true := by
  refine ⟨?_, by decide, by decide⟩
  rintro (⟨i, l⟩ | ⟨j, k⟩)
  · cases l
    · revert i
      decide
    · revert i
      decide
  · revert j k
    decide

/-- RunRecordOverEveryStep: a host read of a never-written limb (W3.limb3), of a written one and of the last limb's
neighbour STATUS; a command; an illegal value; a limb write; an asserted reset after a recorded fault. -/
theorem test_witness_run_record :
    (afterStep (hostDoes [.read 64 0x0F8])).runFault = some (.readBeforeWrite (.w 3 3)) ∧
    (afterStep ((withX 1 7).withPending [.read 64 0x10])).runFault = none ∧
    (afterStep (hostDoes [.read 64 0x100])).runFault = none ∧
    (afterStep (hostDoes [.write 64 0x108 0x90000000])).runFault = some (.readBeforeWrite (.x 0 .lo)) ∧
    (afterStep (hostDoes [.write 64 0x108 0xC0000000])).runFault = none ∧
    (afterStep (hostDoes [.write 64 0x0F8 1])).runFault = none ∧
    (afterStep (afterStep (hostDoes [.read 64 0x0F8, .assertReset]))).runFault = some (.readBeforeWrite (.w 3 3)) := by
  decide

/-- InstancesStayIndependent: two instances draw from two streams, after reset and after an access to one of them. -/
theorem test_witness_independent :
    (Platform.atReset [0x10000, 0x20000] []).instances.map (fun inst => inst.core.freeStream) = [0, 1] ∧
    (match (Platform.atReset [0x10000, 0x20000] [[.read 64 0x20000]]).step 0 with
      | .next q => q.instances.map (fun inst => inst.core.freeStream)
      | .fault _ => []
      | .refused _ => []) = [0, 1] := by decide

/-- InstancesShareNoState: a reset of the second instance, an agent with nothing left, and no such agent. -/
theorem test_witness_platform_events :
    (match (Platform.atReset [0x10000, 0x20000] [[.assertReset 1]]).step 0 with
      | .next q => q.instances.map (fun inst => inst.core.phase)
      | .fault _ => []
      | .refused _ => []) = [.running, .inReset] ∧
    (Platform.atReset [0x10000] [[]]).agents[0]? = some [] ∧ (Platform.atReset [0x10000] [[]]).agents[1]? = none := by
  decide

/-- InstancesShareNoState: an agent's write reaches the second of two instances and only it. -/
theorem test_witness_platform :
    (match (Platform.atReset [0x10000, 0x20000] [[.write 64 0x20108 0xA0000004]]).step 0 with
      | .next q => (q.instances.map (fun inst => (inst.core.xReg 0).lo.value), q.agents)
      | .fault _ => ([], [])
      | .refused _ => ([], [])) = ([0, 4], [[]]) := by decide

end Sys2Proof.Tests
end

/-! The frame of the commands that write an X register. Each of them writes that register over a state that differs from
its first state in the run's record and, for LLS, in STATUS.DOM (R32, R40, R45). -/

namespace Sys2Proof.Machine

/-! ### Recording two reads -/

/-- Recording the reads of two limbs changes no field but the record. -/
theorem State.noteLimb_noteLimb_frame (s : State) (m n : LimbName) :
    ∃ f, (s.noteLimb m).noteLimb n = s.withRunFault f := by
  obtain ⟨f, hf⟩ := s.noteLimb_frame m
  obtain ⟨g, hg⟩ := (s.noteLimb m).noteLimb_frame n
  exact ⟨g, by rw [hg, hf]; rfl⟩

/-- Recording the reads of two whole X registers changes no field but the record. -/
theorem State.noteX_noteX_frame (s : State) (i j : BitVec 3) :
    ∃ f, (s.noteX i).noteX j = s.withRunFault f := by
  obtain ⟨f, hf⟩ := s.noteX_frame i
  obtain ⟨g, hg⟩ := (s.noteX i).noteX_frame j
  exact ⟨g, by rw [hg, hf]; rfl⟩

/-! ### What a command with an X destination can do -/

/-- What such a command leaves: X[d] written over `s`, with this record of the run and this STATUS.DOM. -/
def State.afterXCommand (s : State) (d : XField) (f : Option Fault) (dom : Bool) (v : Limb128) : State :=
  ((s.withRunFault f).withStatus { s.status with dom := dom }).writeX d v

/-- The outcome is a next state with X[d] written over `s`, whose STATUS.DOM is kept unless the command reports it. -/
def WritesXOver (s : State) (d : XField) (reports : Bool) (o : Host.Outcome State Fault Refusal) : Prop :=
  ∃ f dom v, o = .next (s.afterXCommand d f dom v) ∧ (reports = false → dom = s.status.dom)

/-- Writing X[d] over a state that differs from `s` in the record only. -/
theorem writesXOver_of_frame {s u : State} (hu : ∃ f, u = s.withRunFault f) (d : XField) (v : Limb128)
    (reports : Bool) : WritesXOver s d reports (.next (u.writeX d v)) := by
  obtain ⟨f, rfl⟩ := hu
  exact ⟨f, s.status.dom, v, rfl, fun _ => rfl⟩

/-- Every command with an X destination completes, and writes X[d] and the record only; LLS may set DOM besides. -/
theorem exec_of_xDest {i : Instr} {d : XField} (hd : xDest i = some d) (s : State) :
    WritesXOver s d (isLls i) (exec i s) := by
  cases i with
  | add rd ra rb =>
    cases hd
    exact writesXOver_of_frame (s.noteX_noteX_frame ra rb) _ _ _
  | sub rd ra rb =>
    cases hd
    exact writesXOver_of_frame (s.noteX_noteX_frame ra rb) _ _ _
  | mulw rd ra rb sa sb =>
    cases hd
    exact writesXOver_of_frame (s.noteLimb_noteLimb_frame (selectedLimb ra sa) (selectedLimb rb sb)) _ _ _
  | red rd ra =>
    cases hd
    exact writesXOver_of_frame (s.noteW_frame (wIndex ra)) _ _ _
  | ldi rd imm =>
    cases hd
    exact writesXOver_of_frame ⟨s.runFault, rfl⟩ _ _ _
  | ldm rd =>
    cases hd
    exact writesXOver_of_frame ⟨s.runFault, rfl⟩ _ _ _
  | lls rd ra =>
    cases hd
    obtain ⟨f, hf⟩ := s.noteX_frame ra
    refine ⟨f, s.status.dom || outsideDomain (s.readX .a ra), llstep (s.readX .a ra), ?_, by simp [isLls]⟩
    simp only [exec, execLls, hf]
    rfl
  | nop => cases hd
  | cmp ra rb => cases hd
  | sqr rd ra => cases hd
  | subw rd ra rb => cases hd
  | subwi rd ra imm => cases hd

/-! ### Its frame -/

theorem State.afterXCommand_sameLimbs (s : State) (d : XField) (f : Option Fault) (dom : Bool) (v : Limb128) :
    SameLimbsBut [.x d .lo, .x d .hi] s (s.afterXCommand d f dom v) := by
  intro n hn
  rw [State.afterXCommand, State.writeX_cell_ne _ (by simpa [xLimbs] using hn)]
  exact State.cell_congr (by simp) (by simp) n

theorem State.afterXCommand_sameOutside (s : State) (d : XField) (f : Option Fault) (dom : Bool) (v : Limb128) :
    SameOutside s (s.afterXCommand d f dom v) :=
  ⟨rfl, rfl, rfl, rfl, rfl⟩

/-- The window shows limbs, STATUS and constants only (R61, R62): where the limbs off the list and what picks the free
values are kept, every offset off the list but STATUS reads as before. -/
theorem sameWindowBut_of_sameLimbsBut {ns : List LimbName} {s t : State} (hl : SameLimbsBut ns s t)
    (ha : t.accessNo = s.accessNo) (hf : t.freeStream = s.freeStream) : SameWindowBut ns s t := by
  intro off hoff hst
  unfold hostRead
  cases hw : windowReg off with
  | limb n => exact State.readLimb_congr (hl n fun hn => hoff n hn hw) ha hf .a
  | status => exact absurd hw hst
  | cmd => rfl
  | modLo => rfl
  | modHi => rfl
  | reserved => rfl

/-- Settles O19: every command with an X destination leaves `State.afterXCommand`, whose frame is that of one register
write. -/
theorem xCommandFrame : Obligations.XCommandFrame := by
  unfold Obligations.XCommandFrame
  intro i d hd s t ht
  obtain ⟨f, dom, v, he, hdom⟩ := exec_of_xDest hd s
  obtain rfl : s.afterXCommand d f dom v = t := Host.Outcome.next.inj (he.symm.trans ht)
  have hlimbs := s.afterXCommand_sameLimbs d f dom v
  have hout := s.afterXCommand_sameOutside d f dom v
  exact ⟨hlimbs, rfl, rfl, rfl, hdom, hout, sameWindowBut_of_sameLimbsBut hlimbs rfl rfl⟩

end Sys2Proof.Machine

/-! What a command can do, said once for the commands with one kind of destination: the reads it records, the register
or STATUS field it writes, and its frame (R32, R33, R36, R40, R44, R45). -/

namespace Sys2Proof.Machine

/-! ### The run's record of a list of reads -/

/-- Record the reads of the limbs in the list, in order. -/
def State.noteLimbs (s : State) (ns : List LimbName) : State := ns.foldl State.noteLimb s

@[simp] theorem recordAfter_nil (s : State) : recordAfter s [] = s.runFault := by
  unfold recordAfter
  cases s.runFault <;> rfl

/-- A run faulted before keeps its record. -/
theorem recordAfter_of_faulted {s : State} {f : Fault} (h : s.runFault = some f) (ns : List LimbName) :
    recordAfter s ns = some f := by
  simp [recordAfter, h]

/-- Recording reads one after the other leaves the record `recordAfter` names, and changes nothing else. -/
theorem State.noteLimbs_eq (s : State) (ns : List LimbName) :
    s.noteLimbs ns = s.withRunFault (recordAfter s ns) := by
  induction ns generalizing s with
  | nil => rw [recordAfter_nil]; rfl
  | cons n ns ih =>
    obtain ⟨f, hf⟩ := s.noteLimb_frame n
    calc s.noteLimbs (n :: ns) = (s.noteLimb n).noteLimbs ns := rfl
      _ = (s.noteLimb n).withRunFault (recordAfter (s.noteLimb n) ns) := ih _
      _ = s.withRunFault (recordAfter s (n :: ns)) := by rw [recordAfter_noteLimb, hf]; rfl

/-- Every command records the limbs that its rule names, in order, and what it writes afterwards keeps the record. -/
theorem exec_runFault {i : Instr} {s t : State} (h : exec i s = .next t) :
    t.runFault = recordAfter s (limbsRead i) := by
  have hnote : t.runFault = (s.noteLimbs (limbsRead i)).runFault := by
    cases i <;> cases h <;> rfl
  rw [hnote, State.noteLimbs_eq, State.withRunFault_runFault]

/-- Settles O22, as `exec_runFault`. -/
theorem commandRecordsReadBeforeWrite : Obligations.CommandRecordsReadBeforeWrite :=
  fun _ _ _ => exec_runFault

/-! ### The commands without an X destination -/

/-- Every command with a W destination completes, records its reads, and writes W[d] and nothing else. -/
theorem exec_of_wDest {i : Instr} {d : BitVec 2} (hd : wDest i = some d) (s : State) :
    ∃ v, exec i s = .next ((s.withRunFault (recordAfter s (limbsRead i))).writeW d v) := by
  rw [← State.noteLimbs_eq]
  cases i with
  | sqr rd ra => cases hd; exact ⟨_, rfl⟩
  | subw rd ra rb => cases hd; exact ⟨_, rfl⟩
  | subwi rd ra imm => cases hd; exact ⟨_, rfl⟩
  | _ => cases hd

/-- CMP records its reads, and writes STATUS.CMP and nothing else. -/
theorem exec_cmp (ra rb : XField) (s : State) :
    exec (.cmp ra rb) s = .next ((s.withRunFault (recordAfter s (limbsRead (.cmp ra rb)))).setCmp
      (cmp128 (s.readX .a ra) (s.readX .b rb))) := by
  rw [← State.noteLimbs_eq]
  rfl

/-- Settles O20: the frame is that of one register write. -/
theorem wCommandFrame : Obligations.WCommandFrame := by
  unfold Obligations.WCommandFrame
  intro i d hd s t ht
  obtain ⟨v, he⟩ := exec_of_wDest hd s
  obtain rfl := Host.Outcome.next.inj (he.symm.trans ht)
  have hlimbs : SameLimbsBut (wLimbs d) s ((s.withRunFault (recordAfter s (limbsRead i))).writeW d v) :=
    fun _ hn => State.writeW_cell_ne _ hn v
  exact ⟨hlimbs, rfl, rfl, ⟨rfl, rfl, rfl, rfl, rfl⟩, sameWindowBut_of_sameLimbsBut hlimbs rfl rfl, rfl⟩

/-- Settles O21: of the fields, CMP changes STATUS and the record only. -/
theorem cmpFrame : Obligations.CmpFrame := by
  unfold Obligations.CmpFrame
  intro ra rb s t ht
  obtain rfl := Host.Outcome.next.inj ((exec_cmp ra rb s).symm.trans ht)
  exact ⟨rfl, rfl, rfl, rfl, ⟨rfl, rfl, rfl, rfl, rfl⟩,
    sameWindowBut_of_sameLimbsBut (fun n _ => State.cell_congr rfl rfl n) rfl rfl⟩

/-! ### Every command -/

/-- A command writes an X register, writes a W register, is a CMP or is NOP (R45). -/
theorem dest_cases (i : Instr) :
    (∃ d, xDest i = some d) ∨ (∃ d, wDest i = some d) ∨ (∃ ra rb, i = .cmp ra rb) ∨ i = .nop := by
  cases i <;> simp [xDest, wDest]

/-- No command touches the host's side, reset, power, the access count or the stream of free values. -/
theorem exec_sameOutside {i : Instr} {s t : State} (h : exec i s = .next t) : SameOutside s t := by
  rcases dest_cases i with ⟨d, hd⟩ | ⟨d, hd⟩ | ⟨ra, rb, rfl⟩ | rfl
  · obtain ⟨-, -, -, -, -, hout, -⟩ := xCommandFrame i d hd s t h
    exact hout
  · obtain ⟨-, -, -, hout, -⟩ := wCommandFrame i d hd s t h
    exact hout
  · obtain ⟨-, -, -, -, hout, -⟩ := cmpFrame ra rb s t h
    exact hout
  · cases h
    exact ⟨rfl, rfl, rfl, rfl, rfl⟩

/-- LLS reports its operand in STATUS.DOM and writes no other field of STATUS (R221). -/
theorem exec_lls_status {rd ra : XField} {s t : State} (h : exec (.lls rd ra) s = .next t) :
    t.status = { s.status with dom := s.status.dom || outsideDomain (s.readX .a ra) } := by
  obtain ⟨f, hf⟩ := s.noteX_frame ra
  rw [exec, execLls, hf] at h
  cases h
  rfl

/-- All that a command can do to STATUS (R40). -/
theorem exec_status_cases {i : Instr} {s t : State} (h : exec i s = .next t) :
    t.status = s.status ∨
    (∃ ra rb r, i = .cmp ra rb ∧ t.status = { s.status with cmp := r }) ∨
    ∃ rd ra, i = .lls rd ra ∧ t.status = { s.status with dom := s.status.dom || outsideDomain (s.readX .a ra) } := by
  rcases dest_cases i with ⟨d, hd⟩ | ⟨d, hd⟩ | ⟨ra, rb, rfl⟩ | rfl
  · cases hi : isLls i with
    | true =>
      obtain ⟨rd, ra, rfl⟩ : ∃ rd ra, i = .lls rd ra := by cases i <;> simp_all [isLls]
      exact .inr (.inr ⟨rd, ra, rfl, exec_lls_status h⟩)
    | false =>
      obtain ⟨f, dom, v, he, hdom⟩ := exec_of_xDest hd s
      cases he.symm.trans h
      exact .inl (by rw [hdom hi]; rfl)
  · obtain ⟨-, -, hst, -⟩ := wCommandFrame i d hd s t h
    exact .inl hst
  · cases (exec_cmp ra rb s).symm.trans h
    exact .inr (.inl ⟨ra, rb, _, rfl, rfl⟩)
  · cases h
    exact .inl rfl

/-! ### The written marks -/

theorem State.isWritten_writeLimb {s : State} {n : LimbName} (h : s.isWritten n = true) (m : LimbName) (v : Limb) :
    (s.writeLimb m v).isWritten n = true := by
  by_cases e : n = m
  · rw [e, State.isWritten, State.writeLimb_cell_same]
  · rwa [State.isWritten, State.writeLimb_cell_ne s e]

theorem State.isWritten_writeX {s : State} {n : LimbName} (h : s.isWritten n = true) (d : BitVec 3) (v : Limb128) :
    (s.writeX d v).isWritten n = true := by
  by_cases e : n ∈ xLimbs d
  · obtain rfl | rfl : n = .x d .lo ∨ n = .x d .hi := by simpa [xLimbs] using e
    · rw [State.isWritten, State.writeX_cell_lo]
    · rw [State.isWritten, State.writeX_cell_hi]
  · rwa [State.isWritten, State.writeX_cell_ne s e]

theorem State.isWritten_writeW {s : State} {n : LimbName} (h : s.isWritten n = true) (d : BitVec 2) (v : Limb256) :
    (s.writeW d v).isWritten n = true := by
  by_cases e : n ∈ wLimbs d
  · obtain ⟨k, rfl⟩ : ∃ k, n = .w d k := by
      simp only [wLimbs, List.mem_cons, List.not_mem_nil, or_false] at e
      rcases e with e | e | e | e <;> exact ⟨_, e⟩
    rw [State.isWritten, State.writeW_cell]
  · rwa [State.isWritten, State.writeW_cell_ne s e]

/-- No command makes a written limb never-written. -/
theorem exec_isWritten {i : Instr} {s t : State} {n : LimbName} (h : exec i s = .next t)
    (hn : s.isWritten n = true) : t.isWritten n = true := by
  rcases dest_cases i with ⟨d, hd⟩ | ⟨d, hd⟩ | ⟨ra, rb, rfl⟩ | rfl
  · obtain ⟨f, dom, v, he, -⟩ := exec_of_xDest hd s
    cases he.symm.trans h
    exact State.isWritten_writeX hn d v
  · obtain ⟨v, he⟩ := exec_of_wDest hd s
    cases he.symm.trans h
    exact State.isWritten_writeW hn d v
  · cases (exec_cmp ra rb s).symm.trans h
    exact hn
  · cases h
    exact hn

end Sys2Proof.Machine

/-! What a step can do, said once: the events that are performed, with what each leaves (R62, R63, R67, R290), and what
follows for the host's events, for the written marks, for the run's record and for STATUS. -/

namespace Sys2Proof.Machine

/-- Writing a limb changes the register files only. -/
theorem State.writeLimb_frame (s : State) (n : LimbName) (v : Limb) :
    ∃ x w, s.writeLimb n v = { s with x := x, w := w } := by
  rcases n with ⟨i, l | l⟩ | ⟨j, k⟩ <;> exact ⟨_, _, rfl⟩

/-! ### The events that are performed -/

/-- `Performs e s t`: event `e`, if it is performed in state `s`, leaves `t`. Which accesses are refused instead is said
by `accessRefusal_eq_none_iff`. -/
inductive Performs : HostEvent → State → State → Prop
  /-- A host read (R62). -/
  | read (off : Nat) (s : State) : Performs (.read 64 off) s ((noteHostRead off s).pushAnswer (hostRead off s))
  /-- A host write of a limb (R63). -/
  | writeLimb (off : Nat) (v : Limb) (s : State) (n : LimbName) :
      windowReg off = .limb n → Performs (.write 64 off v) s (s.writeLimb n v)
  /-- A host write of STATUS (R37, R63). -/
  | writeStatus (v : Limb) (s : State) : Performs (.write 64 0x100 v) s (s.clearEvents v)
  /-- A CMD write of a legal value (R67). -/
  | command (v : Limb) (s t : State) (i : Instr) :
      decode v = .ok i → exec i s = .next t → Performs (.write 64 0x108 v) s t
  /-- A CMD write of an illegal value (R262). -/
  | illegal (v : Limb) (s : State) (why : Illegal) :
      decode v = .error why → Performs (.write 64 0x108 v) s (s.raiseIllegalCommand v)
  /-- A host write of MOD or of a reserved offset (R38, R63). -/
  | writeIgnored (off : Nat) (v : Limb) (s : State) :
      windowReg off = .modLo ∨ windowReg off = .modHi ∨ windowReg off = .reserved → Performs (.write 64 off v) s s
  /-- Reset is asserted (R290). -/
  | assertReset (s : State) : Performs .assertReset s (s.applyReset.withPhase .inReset)
  /-- Reset is released (R290). -/
  | releaseReset (s : State) : Performs .releaseReset s (s.withPhase (releasedPhase s.phase))
  /-- Power is lost (R274). -/
  | powerLoss (s : State) : Performs .powerLoss s (s.withPhase .awaitingReset)

/-- A host write that is performed is one of the kinds of R63. -/
theorem performs_of_hostWrite {off : Nat} {v : Limb} {s t : State} (h : hostWrite off v s = .next t) :
    Performs (.write 64 off v) s t := by
  cases hw : windowReg off <;> simp only [hostWrite, hw] at h
  case limb n => cases h; exact .writeLimb off v s n hw
  case status => cases h; rw [(windowReg_status_iff off).1 hw]; exact .writeStatus v s
  case cmd =>
    rw [(windowReg_cmd_iff off).1 hw]
    cases hdec : decode v with
    | ok i => exact .command v s t i hdec (by simpa only [execute, hdec] using h)
    | error why =>
      simp only [execute, hdec] at h
      cases h
      exact .illegal v s why hdec
  case modLo => cases h; exact .writeIgnored off v s (.inl hw)
  case modHi => cases h; exact .writeIgnored off v s (.inr (.inl hw))
  case reserved => cases h; exact .writeIgnored off v s (.inr (.inr hw))

/-- Performing an event, where it answers a next state, does what `Performs` says. -/
theorem performs_of_perform {e : HostEvent} {s t : State} (h : perform e s = .next t) : Performs e s t := by
  cases e with
  | read width off =>
    simp only [perform] at h
    split at h
    · cases h
    next ha =>
      obtain ⟨-, rfl, -, -⟩ := (accessRefusal_eq_none_iff _ _ _).1 ha
      cases h
      exact .read off s
  | write width off v =>
    simp only [perform] at h
    split at h
    · cases h
    next ha =>
      obtain ⟨-, rfl, -, -⟩ := (accessRefusal_eq_none_iff _ _ _).1 ha
      exact performs_of_hostWrite h
  | assertReset => cases h; exact .assertReset s
  | releaseReset => cases h; exact .releaseReset s
  | resetDuringAccess => cases h
  | powerLoss => cases h; exact .powerLoss s

theorem step_of_idle {s : State} (h : s.pending = []) : step s = .next s := by
  simp [step, nextEvent, h]

theorem step_of_pending {s : State} {e : HostEvent} {es : List HostEvent} (h : s.pending = e :: es) :
    step s = perform e (s.withPending es).nextAccess := by
  simp [step, nextEvent, h]

/-- All that a step can do: nothing, with no event pending, or the first pending event. -/
theorem step_cases {s t : State} (h : step s = .next t) :
    (s.pending = [] ∧ t = s) ∨
    ∃ e es, s.pending = e :: es ∧ Performs e (s.withPending es).nextAccess t := by
  cases hp : s.pending with
  | nil => exact .inl ⟨rfl, Host.Outcome.next.inj (h.symm.trans (step_of_idle hp))⟩
  | cons e es => exact .inr ⟨e, es, rfl, performs_of_perform ((step_of_pending hp).symm.trans h)⟩

/-- A step with an event pending performs it. -/
theorem performs_of_step {s t : State} {e : HostEvent} {es : List HostEvent} (hp : s.pending = e :: es)
    (h : step s = .next t) : Performs e (s.withPending es).nextAccess t :=
  performs_of_perform ((step_of_pending hp).symm.trans h)

/-! ### The host's events (R69) -/

/-- Performing an event leaves the events to come as they are. -/
theorem Performs.pending {e : HostEvent} {s t : State} (h : Performs e s t) : t.pending = s.pending := by
  cases h with
  | read off =>
    obtain ⟨f, hf⟩ := noteHostRead_frame off s
    rw [hf]; rfl
  | writeLimb off v _ n _ =>
    obtain ⟨x, w, hxw⟩ := s.writeLimb_frame n v
    rw [hxw]
  | command v _ _ i _ hexec =>
    obtain ⟨-, hpending, -⟩ := exec_sameOutside hexec
    exact hpending
  | _ => rfl

/-- Settles O44: an event is taken off the list before it is performed, and performing it keeps the list. -/
theorem stepTakesOneEventInOrder : Obligations.StepTakesOneEventInOrder :=
  ⟨fun _ => step_of_idle, fun _ _ _ _ hp h => (performs_of_step hp h).pending⟩

/-! ### The written marks (R44) -/

/-- Performing an event keeps a written limb written, unless the event asserts reset. -/
theorem Performs.isWritten {e : HostEvent} {s t : State} {n : LimbName} (h : Performs e s t)
    (hn : s.isWritten n = true) : t.isWritten n = true ∨ e = .assertReset := by
  cases h with
  | read off =>
    obtain ⟨f, hf⟩ := noteHostRead_frame off s
    rw [hf]
    exact .inl hn
  | writeLimb off v _ m _ => exact .inl (State.isWritten_writeLimb hn m v)
  | command v _ _ i _ hexec => exact .inl (exec_isWritten hexec hn)
  | assertReset => exact .inr rfl
  | _ => exact .inl hn

/-- Settles O57, by the events that a step can perform. -/
theorem writtenLimbStaysWritten : Obligations.WrittenLimbStaysWritten := by
  unfold Obligations.WrittenLimbStaysWritten
  intro s t n h hn
  rcases step_cases h with ⟨-, rfl⟩ | ⟨e, es, hp, hperf⟩
  · exact .inl hn
  · rcases hperf.isWritten hn with hw | rfl
    · exact .inl hw
    · exact .inr ⟨es, hp⟩

/-! ### The run's record (U1) -/

/-- The limbs that performing an event reads: the limb a host read names, the limbs a CMD write's command reads. -/
def limbsReadBy : HostEvent → List LimbName
  | .read _ off =>
    match windowReg off with
    | .limb n => [n]
    | _ => []
  | .write _ off v =>
    if off = 0x108 then
      match decode v with
      | .ok i => limbsRead i
      | .error _ => []
    else []
  | .assertReset => []
  | .releaseReset => []
  | .resetDuringAccess => []
  | .powerLoss => []

theorem State.noteLimb_runFault (s : State) (n : LimbName) : (s.noteLimb n).runFault = recordAfter s [n] := by
  rw [← recordAfter_nil, recordAfter_noteLimb]

theorem noteHostRead_runFault (off : Nat) (s : State) :
    (noteHostRead off s).runFault = recordAfter s (limbsReadBy (.read 64 off)) := by
  unfold noteHostRead limbsReadBy
  split <;> simp [State.noteLimb_runFault, *]

/-- Performing an event records the limbs it reads, in order, and nothing else. -/
theorem Performs.runFault {e : HostEvent} {s t : State} (h : Performs e s t) :
    t.runFault = recordAfter s (limbsReadBy e) := by
  cases h with
  | read off => exact noteHostRead_runFault off s
  | writeLimb off v _ n hw =>
    have hoff : off ≠ 0x108 := fun hcmd => by simp [(windowReg_cmd_iff off).2 hcmd] at hw
    obtain ⟨x, w, hxw⟩ := s.writeLimb_frame n v
    simp [limbsReadBy, hoff, hxw]
  | writeStatus v => simp [limbsReadBy]
  | command v _ _ i hdec hexec => simp [limbsReadBy, hdec, exec_runFault hexec]
  | illegal v _ why hdec => simp [limbsReadBy, hdec]
  | writeIgnored off v _ hw =>
    have hoff : off ≠ 0x108 := fun hcmd => by simp [(windowReg_cmd_iff off).2 hcmd] at hw
    simp [limbsReadBy, hoff]
  | assertReset => simp [limbsReadBy]
  | releaseReset => simp [limbsReadBy]
  | powerLoss => simp [limbsReadBy]

/-- A read at 0x100 or above reads no limb (R61). -/
theorem limbsReadBy_read_of_le {width off : Nat} (h : 0x100 ≤ off) : limbsReadBy (.read width off) = [] := by
  have hx : ¬ off < 0x080 := by omega
  have hw : ¬ off < 0x100 := by omega
  simp only [limbsReadBy, windowReg, hx, hw, if_false]
  split_ifs <;> rfl

/-- Settles O59: each clause is `Performs.runFault` at one kind of event. -/
theorem runRecordOverEveryStep : Obligations.RunRecordOverEveryStep := by
  unfold Obligations.RunRecordOverEveryStep
  intro s t h
  have hrec {e : HostEvent} {es : List HostEvent} (hp : s.pending = e :: es) :
      t.runFault = recordAfter s (limbsReadBy e) := (performs_of_step hp h).runFault
  refine ⟨fun f hf => ?kept, fun width off es hp => ⟨fun n hn => ?limb, fun hle => ?other⟩,
    fun width off v es hp => ⟨fun i hoff hdec => ?command, fun why hoff hdec => ?illegal, fun hoff => ?write⟩,
    fun e es hp he => ?outside, fun hp => ?idle⟩
  case kept =>
    rcases step_cases h with ⟨-, rfl⟩ | ⟨e, es, hp, -⟩
    · exact hf
    · rw [hrec hp, recordAfter_of_faulted hf]
  case limb => rw [hrec hp, limbsReadBy, hn, (windowReg_offset n).1]
  case other => rw [hrec hp, limbsReadBy_read_of_le hle, recordAfter_nil]
  case command => simp [hrec hp, limbsReadBy, hoff, hdec]
  case illegal => simp [hrec hp, limbsReadBy, hoff, hdec]
  case write => simp [hrec hp, limbsReadBy, hoff]
  case outside =>
    rcases he with rfl | rfl | rfl <;> simp [hrec hp, limbsReadBy]
  case idle => cases h.symm.trans (step_of_idle hp); rfl

/-! ### STATUS (R37, R40) -/

/-- `StatusEffect e s st`: event `e`, performed in state `s`, may leave STATUS `st`. -/
inductive StatusEffect : HostEvent → State → Status → Prop
  | kept (e : HostEvent) (s : State) : StatusEffect e s s.status
  | cleared (v : Limb) (s : State) : StatusEffect (.write 64 0x100 v) s (s.clearEvents v).status
  | compared (v : Limb) (s : State) (ra rb : XField) (r : CmpField) :
      decode v = .ok (.cmp ra rb) → StatusEffect (.write 64 0x108 v) s { s.status with cmp := r }
  | reported (v : Limb) (s : State) (rd ra : XField) :
      decode v = .ok (.lls rd ra) → StatusEffect (.write 64 0x108 v) s (s.reportDomain (s.readX .a ra)).status
  | illegal (v : Limb) (s : State) (why : Illegal) :
      decode v = .error why → StatusEffect (.write 64 0x108 v) s (s.raiseIllegalCommand v).status
  | reset (s : State) : StatusEffect .assertReset s Status.afterReset

/-- All that performing an event can do to STATUS (R40). -/
theorem Performs.statusEffect {e : HostEvent} {s t : State} (h : Performs e s t) : StatusEffect e s t.status := by
  cases h with
  | read off =>
    obtain ⟨f, hf⟩ := noteHostRead_frame off s
    rw [hf]
    exact .kept _ s
  | writeLimb off v _ n _ =>
    obtain ⟨x, w, hxw⟩ := s.writeLimb_frame n v
    rw [hxw]
    exact .kept _ s
  | writeStatus v => exact .cleared v s
  | command v _ _ i hdec hexec =>
    rcases exec_status_cases hexec with hst | ⟨ra, rb, r, rfl, hst⟩ | ⟨rd, ra, rfl, hst⟩ <;> rw [hst]
    · exact .kept _ s
    · exact .compared v s ra rb r hdec
    · exact .reported v s rd ra hdec
  | illegal v _ why hdec => exact .illegal v s why hdec
  | assertReset => exact .reset s
  | _ => exact .kept _ s

/-! The five clauses of R37 and R40, each by the effects that fall under it. -/

theorem StatusEffect.of_cmp_ne {e : HostEvent} {s : State} {st : Status} (h : StatusEffect e s st)
    (hne : st.cmp ≠ s.status.cmp) :
    (∃ v ra rb, e = .write 64 0x108 v ∧ decode v = .ok (.cmp ra rb)) ∨ e = .assertReset := by
  cases h with
  | compared v _ ra rb r hdec => exact .inl ⟨v, ra, rb, rfl, hdec⟩
  | reset => exact .inr rfl
  | _ => exact absurd rfl hne

theorem StatusEffect.of_dom_set {e : HostEvent} {s : State} {st : Status} (h : StatusEffect e s st)
    (hs : s.status.dom = false) (ht : st.dom = true) :
    ∃ v rd ra, e = .write 64 0x108 v ∧ decode v = .ok (.lls rd ra) ∧ 2 ^ 127 - 1 ≤ (s.readX .a ra).toNat := by
  cases h with
  | reported v _ rd ra hdec =>
    have hout : outsideDomain (s.readX .a ra) = true := by simpa [hs] using ht
    exact ⟨v, rd, ra, rfl, hdec, by simpa [outsideDomain_eq] using hout⟩
  | cleared v => simp [hs] at ht
  | reset => cases ht
  | _ => cases hs.symm.trans ht

theorem StatusEffect.of_dom_cleared {e : HostEvent} {s : State} {st : Status} (h : StatusEffect e s st)
    (hs : s.status.dom = true) (ht : st.dom = false) :
    (∃ v, e = .write 64 0x100 v ∧ v.getLsbD 2 = true) ∨ e = .assertReset := by
  cases h with
  | cleared v => exact .inl ⟨v, rfl, by simpa [hs] using ht⟩
  | reset => exact .inr rfl
  | reported => simp [hs] at ht
  | _ => cases hs.symm.trans ht

theorem StatusEffect.of_ill_set {e : HostEvent} {s : State} {st : Status} (h : StatusEffect e s st)
    (hs : s.status.ill = false) (ht : st.ill = true) :
    ∃ v why, e = .write 64 0x108 v ∧ decode v = .error why := by
  cases h with
  | illegal v _ why hdec => exact ⟨v, why, rfl, hdec⟩
  | cleared v => simp [hs] at ht
  | reset => cases ht
  | _ => cases hs.symm.trans ht

theorem StatusEffect.of_ill_cleared {e : HostEvent} {s : State} {st : Status} (h : StatusEffect e s st)
    (hs : s.status.ill = true) (ht : st.ill = false) :
    (∃ v, e = .write 64 0x100 v ∧ v.getLsbD 3 = true) ∨ e = .assertReset := by
  cases h with
  | cleared v => exact .inl ⟨v, rfl, by simpa [hs] using ht⟩
  | reset => exact .inr rfl
  | illegal => cases ht
  | _ => cases hs.symm.trans ht

/-- Settles O52: the step performs an event, and what the event may do to STATUS is `StatusEffect`. -/
theorem onlyTheseEventsChangeStatus : Obligations.OnlyTheseEventsChangeStatus := by
  unfold Obligations.OnlyTheseEventsChangeStatus
  intro s t h
  rcases step_cases h with ⟨-, rfl⟩ | ⟨e, es, hp, hperf⟩
  · simp +contextual
  have hst := hperf.statusEffect
  refine ⟨fun hne => ?cmp, fun hs ht => ?domSet, fun hs ht => ?domCleared, fun hs ht => ?illSet,
    fun hs ht => ?illCleared⟩
  case cmp =>
    rcases hst.of_cmp_ne hne with ⟨v, ra, rb, rfl, hdec⟩ | rfl
    · exact .inl ⟨v, es, ra, rb, hp, hdec⟩
    · exact .inr ⟨es, hp⟩
  case domSet =>
    obtain ⟨v, rd, ra, rfl, hdec, hle⟩ := hst.of_dom_set hs ht
    exact ⟨v, es, rd, ra, hp, hdec, hle⟩
  case domCleared =>
    rcases hst.of_dom_cleared hs ht with ⟨v, rfl, hv⟩ | rfl
    · exact .inl ⟨v, es, hp, hv⟩
    · exact .inr ⟨es, hp⟩
  case illSet =>
    obtain ⟨v, why, rfl, hdec⟩ := hst.of_ill_set hs ht
    exact ⟨v, es, why, hp, hdec⟩
  case illCleared =>
    rcases hst.of_ill_cleared hs ht with ⟨v, rfl, hv⟩ | rfl
    · exact .inl ⟨v, es, hp, hv⟩
    · exact .inr ⟨es, hp⟩

end Sys2Proof.Machine

/-! Reset, MOD and the platform (R38, R43, R46, R272, R290). -/

namespace Sys2Proof.Machine

/-! ### MOD (R38) -/

theorem hostRead_modLo (s : State) : hostRead 0x110 s = 0xFFFFFFFFFFFFFFFF#64 := rfl

theorem hostRead_modHi (s : State) : hostRead 0x118 s = 0x7FFFFFFFFFFFFFFF#64 := rfl

/-- The two limbs of MOD make up M127. -/
theorem join128_hostRead_mod (s : State) : join128 (hostRead 0x118 s) (hostRead 0x110 s) = Config.m127 :=
  join128_hi128_lo128 Config.m127

/-- Settles O48: MOD's two limbs read as those of `Config.m127`, the constant that each user names. -/
theorem modIsAlwaysM127 : Obligations.ModIsAlwaysM127 := by
  unfold Obligations.ModIsAlwaysM127
  refine ⟨fun s => ⟨hostRead_modLo s, hostRead_modHi s⟩, ?write, fun s => ?use⟩
  case write =>
    rintro s v es hrun (hp | hp)
    · exact step_of_write hrun hp (by decide) (by decide)
    · exact step_of_write hrun hp (by decide) (by decide)
  case use =>
    rw [join128_hostRead_mod]
    exact ⟨fun r => rfl, fun v => by simp [outsideDomain],
      fun rd => ⟨s.writeX rd Config.m127, rfl, fun p => s.readX_writeX_same p rd _⟩⟩

/-! ### Reset (R43, R290, R274) -/

theorem State.reset_isWritten (n : LimbName) : State.reset.isWritten n = false := by
  rcases n with ⟨i, l | l⟩ | ⟨j, k⟩ <;>
    simp [State.isWritten, State.cell, State.xReg, State.wReg, State.reset, XRegister.afterReset, WRegister.afterReset,
      RegLimb.afterReset]

theorem step_of_assertReset {s : State} {es : List HostEvent} (hp : s.pending = .assertReset :: es) :
    step s = .next ((s.withPending es).nextAccess.applyReset.withPhase .inReset) :=
  step_of_pending hp

theorem step_of_releaseReset {s : State} {es : List HostEvent} (hp : s.pending = .releaseReset :: es) :
    step s = .next ((s.withPending es).nextAccess.withPhase (releasedPhase s.phase)) :=
  step_of_pending hp

/-- An access is refused in every phase but running (U3). -/
theorem accessRefusal_of_not_running {p : Phase} (hp : p = .inReset ∨ p = .awaitingReset) (width off : Nat) :
    ∃ r, accessRefusal p width off = some r := by
  rcases hp with rfl | rfl <;> exact ⟨_, rfl⟩

/-- Settles O51: after reset the register files are those of `State.reset`, and no other phase than running performs an
access. -/
theorem resetLeavesResetState : Obligations.ResetLeavesResetState := by
  unfold Obligations.ResetLeavesResetState
  refine ⟨fun s es hp => ?asserted, ⟨rfl, rfl, State.reset_isWritten, by decide⟩,
    fun s width off v es hph hp => ?access, fun s es hp => ?during, fun s es hp => ?power⟩
  case asserted =>
    refine ⟨_, _, step_of_assertReset hp, rfl, step_of_releaseReset rfl, ?_⟩
    exact ⟨rfl, rfl, State.reset_isWritten, rfl, rfl, rfl, hostRead_modLo _, hostRead_modHi _⟩
  case access =>
    obtain ⟨r, hr⟩ := accessRefusal_of_not_running hph width off
    rcases hp with hp | hp
    · exact ⟨r, by simp [step_of_pending hp, perform, hr]⟩
    · exact ⟨r, by simp [step_of_pending hp, perform, hr]⟩
  case during => exact ⟨_, step_of_pending hp⟩
  case power => exact ⟨_, step_of_pending hp, rfl⟩

/-! ### The platform (R46, R60, R272) -/

/-- Delivering an event to instance k keeps the agents and every other instance; instance k performs it. -/
theorem Platform.deliver_frame {p q : Platform} {k : Nat} {ev : HostEvent} (h : p.deliver k ev = .next q) :
    q.agents = p.agents ∧ q.instances.length = p.instances.length ∧
    (∀ j, j ≠ k → q.instances[j]? = p.instances[j]?) ∧
    ∀ a, p.instances[k]? = some a →
      ∃ b, q.instances[k]? = some b ∧ b.base = a.base ∧ perform ev a.core.nextAccess = .next b.core := by
  rcases Platform.deliver_cases h with ⟨hnone, rfl⟩ | ⟨inst, c, hinst, hc, rfl⟩
  · exact ⟨rfl, rfl, fun _ _ => rfl, by simp [hnone]⟩
  · obtain ⟨hk, -⟩ := List.getElem?_eq_some_iff.1 hinst
    refine ⟨rfl, List.length_set, fun j hj => List.getElem?_set_ne hj.symm, fun a ha => ?_⟩
    obtain rfl : inst = a := Option.some.inj (hinst.symm.trans ha)
    exact ⟨{ inst with core := c }, List.getElem?_set_self hk, rfl, hc⟩

/-- A bus read that answers is delivered to the instance whose window holds the address, at its offset there. -/
theorem Platform.busEvent_read {p q : Platform} {width addr : Nat} (h : p.busEvent (.read width addr) = .next q) :
    ∃ k a, p.route addr = some k ∧ p.instances[k]? = some a ∧ a.base ≤ addr ∧ addr < a.base + 4096 ∧
      p.deliver k (.read width (addr - a.base)) = .next q := by
  cases hr : p.route addr with
  | none => simp [Platform.busEvent, hr] at h
  | some k =>
    obtain ⟨a, ha, hle, hlt, hoff⟩ := Platform.route_eq_some hr
    exact ⟨k, a, rfl, ha, hle, hlt, by simpa [Platform.busEvent, hr, hoff] using h⟩

/-- A bus write that answers is delivered to the instance whose window holds the address, at its offset there. -/
theorem Platform.busEvent_write {p q : Platform} {width addr : Nat} {v : Limb}
    (h : p.busEvent (.write width addr v) = .next q) :
    ∃ k a, p.route addr = some k ∧ p.instances[k]? = some a ∧ a.base ≤ addr ∧ addr < a.base + 4096 ∧
      p.deliver k (.write width (addr - a.base) v) = .next q := by
  cases hr : p.route addr with
  | none => simp [Platform.busEvent, hr] at h
  | some k =>
    obtain ⟨a, ha, hle, hlt, hoff⟩ := Platform.route_eq_some hr
    exact ⟨k, a, rfl, ha, hle, hlt, by simpa [Platform.busEvent, hr, hoff] using h⟩

/-- Settles O58: a step delivers the agent's next access to one instance, and `Platform.deliver_frame` says the rest. -/
theorem instancesShareNoState : Obligations.InstancesShareNoState := by
  unfold Obligations.InstancesShareNoState
  intro p q agent h
  refine ⟨fun hnil => ?nothing, fun hnone => ?noAgent, fun e es he => ?access⟩
  case nothing => simpa [Platform.step, hnil] using h.symm
  case noAgent => simpa [Platform.step, hnone] using h.symm
  case access =>
    have hbus : Platform.busEvent { p with agents := p.agents.set agent es } e = .next q := by
      simpa [Platform.step, he] using h
    cases e with
    | read width addr =>
      obtain ⟨k, a, hroute, ha, hle, hlt, hdel⟩ := Platform.busEvent_read hbus
      obtain ⟨hagents, hlen, hothers, hk⟩ := Platform.deliver_frame hdel
      exact ⟨hagents, hlen, k, _, ⟨hroute, a, ha, hle, hlt, rfl⟩, hothers, hk⟩
    | write width addr v =>
      obtain ⟨k, a, hroute, ha, hle, hlt, hdel⟩ := Platform.busEvent_write hbus
      obtain ⟨hagents, hlen, hothers, hk⟩ := Platform.deliver_frame hdel
      exact ⟨hagents, hlen, k, _, ⟨hroute, a, ha, hle, hlt, rfl⟩, hothers, hk⟩
    | assertReset k =>
      have hdel : Platform.deliver { p with agents := p.agents.set agent es } k .assertReset = .next q := hbus
      obtain ⟨hagents, hlen, hothers, hk⟩ := Platform.deliver_frame hdel
      exact ⟨hagents, hlen, k, _, ⟨rfl, rfl⟩, hothers, hk⟩
    | releaseReset k =>
      have hdel : Platform.deliver { p with agents := p.agents.set agent es } k .releaseReset = .next q := hbus
      obtain ⟨hagents, hlen, hothers, hk⟩ := Platform.deliver_frame hdel
      exact ⟨hagents, hlen, k, _, ⟨rfl, rfl⟩, hothers, hk⟩

end Sys2Proof.Machine

/-! The host window (R61 to R64, R67 to R69): how a CMD value is read, what a host read returns at each kind of offset,
what a host write does there, and what two accesses in a row do. -/

namespace Sys2Proof.Machine

/-! ### CMD values (R67, R90, R102) -/

/-- A well-formed command's word is of the command's row, which reads the command back. -/
theorem encodeWord_row (i : Instr) : Laws.RowReadsBack.Statement i := by
  cases i with
  | nop => exact Laws.RowReadsBack.nop
  | add rd ra rb => exact Laws.RowReadsBack.add rd ra rb
  | sub rd ra rb => exact Laws.RowReadsBack.sub rd ra rb
  | cmp ra rb => exact Laws.RowReadsBack.cmp ra rb
  | mulw rd ra rb sa sb => exact Laws.RowReadsBack.mulw rd ra rb sa sb
  | sqr rd ra => exact Laws.RowReadsBack.sqr rd ra
  | subw rd ra rb => exact Laws.RowReadsBack.subw rd ra rb
  | subwi rd ra imm => exact Laws.RowReadsBack.subwi rd ra imm
  | red rd ra => exact Laws.RowReadsBack.red rd ra
  | lls rd ra => exact Laws.RowReadsBack.lls rd ra
  | ldi rd imm => exact Laws.RowReadsBack.ldi rd imm
  | ldm rd => exact Laws.RowReadsBack.ldm rd

/-- The CMD value of a well-formed command decodes to the command. -/
theorem decode_encode {i : Instr} (h : i.WellFormed) : decode (encode i) = .ok i := by
  obtain ⟨hhits, hbuild⟩ := encodeWord_row i h
  rw [encode, decode_setWidth, decodeWord_of_hits i.row_mem hhits, hbuild]

theorem execute_of_decode {v : BitVec 64} {i : Instr} (h : decode v = .ok i) (s : State) : execute v s = exec i s := by
  rw [execute, h]

theorem execute_of_illegal {v : BitVec 64} {why : Illegal} (h : decode v = .error why) (s : State) :
    execute v s = .next (s.raiseIllegalCommand v) := by
  rw [execute, h]

/-- Every command completes, in every state (R260, R266). -/
theorem exec_completes (i : Instr) (s : State) : ∃ t, exec i s = .next t := by
  cases i <;> exact ⟨_, rfl⟩

theorem execute_completes (v : BitVec 64) (s : State) : ∃ t, execute v s = .next t := by
  cases h : decode v with
  | ok i =>
    rw [execute_of_decode h]
    exact exec_completes i s
  | error why => exact ⟨_, execute_of_illegal h s⟩

/-- A CMD write executes its value. -/
theorem step_of_cmdWrite {s : State} {v : Limb} {es : List HostEvent} (hrun : s.phase = .running)
    (hp : s.pending = .write 64 0x108 v :: es) : step s = execute v (s.withPending es).nextAccess :=
  step_of_write hrun hp (by decide) (by decide)

/-- Settles O42: the step executes the value written, and a value that decodes executes as its command. -/
theorem stepRunsDecodedCommand : Obligations.StepRunsDecodedCommand :=
  fun _ _ _ _ hrun hp hdec => (step_of_cmdWrite hrun hp).trans (execute_of_decode hdec _)

/-! ### The window map above the limbs (R61) -/

theorem windowReg_of_reserved {off : Nat} (h : 0x120 ≤ off) : windowReg off = .reserved := by
  rw [windowReg, if_neg (by omega), if_neg (by omega), if_neg (by omega), if_neg (by omega), if_neg (by omega),
    if_neg (by omega)]

theorem windowReg_of_constant {off : Nat} (h : 0x110 ≤ off) :
    windowReg off = .modLo ∨ windowReg off = .modHi ∨ windowReg off = .reserved := by
  rw [windowReg, if_neg (by omega), if_neg (by omega), if_neg (by omega), if_neg (by omega)]
  split_ifs <;> simp

/-! ### What a host read returns (R62) -/

theorem hostRead_limb (n : LimbName) (s : State) : hostRead n.offset s = s.readLimb .a n := by
  rw [hostRead, (windowReg_offset n).1]

theorem hostRead_status (s : State) : hostRead 0x100 s = statusWord s.status := rfl

theorem hostRead_cmd (s : State) : hostRead 0x108 s = 0 := rfl

theorem hostRead_reserved {off : Nat} (h : 0x120 ≤ off) (s : State) : hostRead off s = 0 := by
  rw [hostRead, windowReg_of_reserved h]

/-- The fields of STATUS stand at their bits (R35). -/
theorem statusWord_toNat (st : Status) :
    (statusWord st).toNat = st.cmp.bits.toNat + (if st.dom then 4 else 0) + (if st.ill then 8 else 0) := by
  rcases st with ⟨cmp, dom, ill⟩
  cases cmp <;> cases dom <;> cases ill <;> rfl

theorem statusWord_cmp (st : Status) : (statusWord st).extractLsb' 0 2 = st.cmp.bits := by
  rcases st with ⟨cmp, dom, ill⟩
  cases cmp <;> cases dom <;> cases ill <;> rfl

theorem statusWord_dom (st : Status) : (statusWord st).getLsbD 2 = st.dom := by
  rcases st with ⟨cmp, dom, ill⟩
  cases cmp <;> cases dom <;> cases ill <;> rfl

theorem statusWord_ill (st : Status) : (statusWord st).getLsbD 3 = st.ill := by
  rcases st with ⟨cmp, dom, ill⟩
  cases cmp <;> cases dom <;> cases ill <;> rfl

/-- A read that meets no never-written limb returns what the registers and STATUS hold, whatever picks the free
values. -/
theorem hostRead_congr_of_written {s t : State} {off : Nat} (hx : t.x = s.x) (hw : t.w = s.w)
    (hst : t.status = s.status) (hwr : ∀ n, windowReg off = .limb n → s.isWritten n = true) :
    hostRead off t = hostRead off s := by
  unfold hostRead
  cases hoff : windowReg off with
  | limb n =>
    have hcell := State.cell_congr hx hw n
    have hs := hwr n hoff
    have ht : t.isWritten n = true := by rwa [State.isWritten, hcell]
    simp only [State.readLimb_of_written hs, State.readLimb_of_written ht, hcell]
  | status => simp only [hst]
  | _ => rfl

/-! ### A host read as a step (R62, R68) -/

/-- `Answered s t v`: from `s` to `t` the host was answered `v`, and the block holds in `t` what it held in `s`. -/
structure Answered (s t : State) (v : Limb) : Prop where
  answers : t.answers = v :: s.answers
  x : t.x = s.x
  w : t.w = s.w
  status : t.status = s.status
  phase : t.phase = s.phase

/-- A host read that answers is answered the window's value and changes nothing of the block. -/
theorem answered_of_step {s t : State} {width off : Nat} {es : List HostEvent} (hp : s.pending = .read width off :: es)
    (h : step s = .next t) : Answered s t (hostRead off s.nextAccess) := by
  cases performs_of_step hp h with
  | read =>
    obtain ⟨f, hf⟩ := noteHostRead_frame off (s.withPending es).nextAccess
    rw [hf]
    exact ⟨rfl, rfl, rfl, rfl, rfl⟩

/-- A supported host read of a running block is answered. -/
theorem step_read_answered {s : State} {off : Nat} {es : List HostEvent} (hrun : s.phase = .running)
    (hp : s.pending = .read 64 off :: es) (h8 : off % 8 = 0) (hl : off < 0x1000) :
    ∃ t, step s = .next t ∧ Answered s t (hostRead off s.nextAccess) := by
  have hstep := step_of_read hrun hp h8 hl
  exact ⟨_, hstep, answered_of_step hp hstep⟩

/-- Settles O45: the read is answered what the window shows, and each clause is the window's value at one kind of
offset. -/
theorem hostReadReturnsWindow : Obligations.HostReadReturnsWindow := by
  unfold Obligations.HostReadReturnsWindow
  intro s off es hrun hp h8 hl
  obtain ⟨t, hstep, hans⟩ := step_read_answered hrun hp h8 hl
  refine ⟨t, _, hstep, hans.answers, hans.x, hans.w, hans.status, hans.phase, ?_⟩
  refine ⟨fun i h => ?xLo, fun i h => ?xHi, fun j k h => ?w, fun h => ?status, fun h => ?cmd, fun h => ?modLo,
    fun h => ?modHi, fun h => hostRead_reserved h _⟩
  case xLo => rw [h]; exact hostRead_limb (.x i .lo) _
  case xHi => rw [h]; exact hostRead_limb (.x i .hi) _
  case w => rw [h]; exact hostRead_limb (.w j k) _
  case status => rw [h, hostRead_status, statusWord_toNat, State.nextAccess_status]
  case cmd => rw [h, hostRead_cmd]
  case modLo => rw [h, hostRead_modLo]
  case modHi => rw [h, hostRead_modHi]

/-! ### What a host write does (R63) -/

theorem hostWrite_limb (n : LimbName) (v : Limb) (s : State) :
    hostWrite n.offset v s = .next (s.writeLimb n v) := by
  rw [hostWrite, (windowReg_offset n).1]

theorem hostWrite_status (v : Limb) (s : State) : hostWrite 0x100 v s = .next (s.clearEvents v) := rfl

theorem hostWrite_constant {off : Nat} (h : 0x110 ≤ off) (v : Limb) (s : State) : hostWrite off v s = .next s := by
  unfold hostWrite
  rcases windowReg_of_constant h with hw | hw | hw <;> rw [hw]

/-- Writing a limb leaves everything outside the register files as it is. -/
theorem State.writeLimb_sameOutside (s : State) (n : LimbName) (v : Limb) : SameOutside s (s.writeLimb n v) := by
  obtain ⟨x, w, hxw⟩ := s.writeLimb_frame n v
  rw [hxw]
  exact ⟨rfl, rfl, rfl, rfl, rfl⟩

/-- A write anywhere but to CMD completes, and neither touches the host's side nor records a read. -/
theorem hostWrite_frame {off : Nat} (hoff : off ≠ 0x108) (v : Limb) (s : State) :
    ∃ t, hostWrite off v s = .next t ∧ SameOutside s t ∧ t.runFault = s.runFault := by
  unfold hostWrite
  cases hw : windowReg off with
  | limb n =>
    obtain ⟨x, w, hxw⟩ := s.writeLimb_frame n v
    exact ⟨_, rfl, s.writeLimb_sameOutside n v, by rw [hxw]⟩
  | cmd => exact absurd ((windowReg_cmd_iff off).1 hw) hoff
  | _ => exact ⟨_, rfl, ⟨rfl, rfl, rfl, rfl, rfl⟩, rfl⟩

theorem hostWrite_completes (off : Nat) (v : Limb) (s : State) : ∃ t, hostWrite off v s = .next t := by
  by_cases hoff : off = 0x108
  · subst hoff
    exact execute_completes v s
  · obtain ⟨t, ht, -⟩ := hostWrite_frame hoff v s
    exact ⟨t, ht⟩

/-- Settles O47: the write is `hostWrite`, whose effect the lemmas above say at each kind of offset. -/
theorem hostWriteChangesWindow : Obligations.HostWriteChangesWindow := by
  unfold Obligations.HostWriteChangesWindow
  intro s off v es hrun hp h8 hl
  refine ⟨fun h => ?cmd, fun h => ?other⟩
  case cmd =>
    subst h
    exact step_of_cmdWrite hrun hp
  case other =>
    obtain ⟨t, ht, ⟨hphase, -, hanswers, -⟩, hfault⟩ := hostWrite_frame h v (s.withPending es).nextAccess
    refine ⟨t, (step_of_write hrun hp h8 hl).trans ht, hphase, hanswers, hfault, fun n hn => ?limb, fun hst => ?status,
      fun hle => ?constant⟩
    case limb =>
      subst hn
      cases (hostWrite_limb n v _).symm.trans ht
      refine ⟨State.writeLimb_cell_same _ n v, fun m hm => ?_, ?_⟩
      · exact State.writeLimb_cell_ne _ (fun e => hm (List.mem_singleton.2 e)) v
      · obtain ⟨x, w, hxw⟩ := State.writeLimb_frame (s.withPending es).nextAccess n v
        rw [hxw]
        rfl
    case status =>
      subst hst
      cases (hostWrite_status v _).symm.trans ht
      exact ⟨rfl, rfl, rfl, by simp [Bool.and_comm], by simp [Bool.and_comm]⟩
    case constant =>
      cases (hostWrite_constant hle v _).symm.trans ht
      exact ⟨rfl, rfl, rfl⟩

/-! ### Supported and unsupported accesses (R64) -/

/-- An access that has a ground for refusal is refused, a read and a write alike. -/
theorem step_of_accessRefusal {s : State} {width off : Nat} {v : Limb} {es : List HostEvent} {r : Refusal}
    (hp : s.pending = .read width off :: es ∨ s.pending = .write width off v :: es)
    (hr : accessRefusal s.phase width off = some r) : step s = .refused r := by
  rcases hp with hp | hp
  · simp [step_of_pending hp, perform, hr]
  · simp [step_of_pending hp, perform, hr]

/-- Settles O50: `accessRefusal` is none exactly on the supported accesses of a running block, and these complete. -/
theorem unsupportedAccessIsRefused : Obligations.UnsupportedAccessIsRefused := by
  unfold Obligations.UnsupportedAccessIsRefused
  intro s width off v es hp
  refine ⟨fun hbad => ?refused, fun hrun hwidth h8 hl => ?performed⟩
  case refused =>
    have hne : accessRefusal s.phase width off ≠ none := by
      intro hnone
      obtain ⟨-, hwidth, hl, h8⟩ := (accessRefusal_eq_none_iff _ _ _).1 hnone
      omega
    obtain ⟨r, hr⟩ := Option.ne_none_iff_exists'.1 hne
    exact ⟨r, step_of_accessRefusal hp hr⟩
  case performed =>
    subst hwidth
    rcases hp with hp | hp
    · exact ⟨_, step_of_read hrun hp h8 hl⟩
    · rw [step_of_write hrun hp h8 hl]
      exact hostWrite_completes off v _

/-! ### The same access twice (R68) -/

/-- A host write that completes is `hostWrite`. -/
theorem hostWrite_of_step {s t : State} {width off : Nat} {v : Limb} {es : List HostEvent}
    (hp : s.pending = .write width off v :: es) (h : step s = .next t) :
    hostWrite off v (s.withPending es).nextAccess = .next t := by
  rw [step_of_pending hp, perform] at h
  split at h
  · cases h
  · exact h

theorem State.withX_xReg (s : State) (i : BitVec 3) : s.withX i (s.xReg i) = s := by
  rw [State.withX, State.xReg, Vector.set_getElem_self]

theorem State.withW_wReg (s : State) (j : BitVec 2) : s.withW j (s.wReg j) = s := by
  rw [State.withW, State.wReg, Vector.set_getElem_self]

/-- Writing a limb with the value that was written to it before changes nothing. -/
theorem State.writeLimb_of_cell {s : State} {n : LimbName} {v : Limb} (h : s.cell n = ⟨v, true⟩) :
    s.writeLimb n v = s := by
  rcases n with ⟨i, l | l⟩ | ⟨j, k⟩ <;> rw [State.cell] at h <;> rw [State.writeLimb, ← h]
  · exact s.withX_xReg i
  · exact s.withX_xReg i
  · rw [Vector.set_getElem_self]
    exact s.withW_wReg j

/-- Where a value has been written to anywhere but CMD, and the registers and STATUS have not changed since, writing it
again leaves them as they are. -/
theorem hostWrite_again {off : Nat} {v : Limb} {s t t' u : State} (hoff : off ≠ 0x108)
    (ht : hostWrite off v s = .next t) (hx : t'.x = t.x) (hw : t'.w = t.w) (hst : t'.status = t.status)
    (hu : hostWrite off v t' = .next u) : u.x = t.x ∧ u.w = t.w ∧ u.status = t.status := by
  unfold hostWrite at ht hu
  cases hreg : windowReg off <;> simp only [hreg] at ht hu
  case cmd => exact absurd ((windowReg_cmd_iff off).1 hreg) hoff
  case limb n =>
    cases ht
    have hcell : t'.cell n = ⟨v, true⟩ := (State.cell_congr hx hw n).trans (State.writeLimb_cell_same s n v)
    rw [State.writeLimb_of_cell hcell] at hu
    cases hu
    exact ⟨hx, hw, hst⟩
  case status =>
    cases ht
    cases hu
    exact ⟨hx, hw, by simp [hst]⟩
  all_goals
    cases hu
    exact ⟨hx, hw, hst⟩

/-- LLS writes the step of its operand to X[rd], over some state. -/
theorem exec_lls_writeX (rd ra : XField) (s : State) :
    ∃ u : State, exec (.lls rd ra) s = .next (u.writeX rd (llstep (s.readX .a ra))) :=
  ⟨_, rfl⟩

/-- Settles O46: a read is answered and changes nothing, a write repeated finds what it wrote, and a CMD write executes
each time. -/
theorem hostAccessIdempotency : Obligations.HostAccessIdempotency := by
  unfold Obligations.HostAccessIdempotency
  refine ⟨fun s t width off es hp h => ?read, fun s t u off es hwr hp h h' => ?readTwice,
    fun s t u off v es hoff hp h h' => ?writeTwice, fun s es hrun hp => ?llsTwice⟩
  case read =>
    have hans := answered_of_step hp h
    exact ⟨hans.x, hans.w, hans.status, hans.phase⟩
  case readTwice =>
    have hans := answered_of_step hp h
    have hans' := answered_of_step (stepTakesOneEventInOrder.2 s t _ _ hp h) h'
    have hsame : hostRead off t.nextAccess = hostRead off s.nextAccess :=
      hostRead_congr_of_written hans.x hans.w hans.status hwr
    exact ⟨_, by rw [hans'.answers, hsame, hans.answers]⟩
  case writeTwice =>
    have hp' := stepTakesOneEventInOrder.2 s t _ _ hp h
    exact hostWrite_again (t' := (t.withPending es).nextAccess) hoff (hostWrite_of_step hp h) rfl rfl rfl
      (hostWrite_of_step hp' h')
  case llsTwice =>
    have hdec : decode 0x90000000 = .ok (.lls 0 0) := by decide
    obtain ⟨a, ha⟩ := exec_lls_writeX 0 0 (s.withPending (.write 64 0x108 0x90000000 :: es)).nextAccess
    obtain ⟨hphase, hpending, -⟩ := exec_sameOutside ha
    obtain ⟨b, hb⟩ := exec_lls_writeX 0 0 ((a.writeX 0 (llstep (s.nextAccess.readX .a 0))).withPending es).nextAccess
    refine ⟨_, _, (stepRunsDecodedCommand s _ _ _ hrun hp hdec).trans ha,
      (stepRunsDecodedCommand _ _ _ _ (hphase.trans hrun) hpending hdec).trans hb, fun p => ?_⟩
    rw [State.readX_writeX_same]
    exact congrArg llstep ((a.withPending es).nextAccess.readX_writeX_same .a 0 _)

/-! ### A write and the read after it (R67, R69) -/

/-- A write whose effect leaves the host's side alone, and the read after it: both complete, and the read is answered
what the window shows in the state that the write left. -/
theorem step_write_read {s s₁ : State} {off off' : Nat} {v : Limb} {es : List HostEvent} (hrun : s.phase = .running)
    (hp : s.pending = .write 64 off v :: .read 64 off' :: es)
    (hoff : off % 8 = 0 ∧ off < 0x1000) (hoff' : off' % 8 = 0 ∧ off' < 0x1000)
    (hw : hostWrite off v (s.withPending (.read 64 off' :: es)).nextAccess = .next s₁)
    (hout : SameOutside (s.withPending (.read 64 off' :: es)).nextAccess s₁) :
    step s = .next s₁ ∧ ∃ s₂, step s₁ = .next s₂ ∧ s₂.answers = hostRead off' s₁.nextAccess :: s.answers := by
  obtain ⟨hphase, hpending, hanswers, -⟩ := hout
  obtain ⟨s₂, hs₂, hans⟩ := step_read_answered (hphase.trans hrun) hpending hoff'.1 hoff'.2
  refine ⟨(step_of_write hrun hp hoff.1 hoff.2).trans hw, s₂, hs₂, ?_⟩
  rw [hans.answers, hanswers]
  rfl

/-- A limb's offset is one at which an access is supported. -/
theorem LimbName.offset_supported (n : LimbName) : n.offset % 8 = 0 ∧ n.offset < 0x1000 := by
  obtain ⟨-, h8, hl⟩ := windowReg_offset n
  exact ⟨h8, by omega⟩

/-- The CMD write of a well-formed command, and the read after it. -/
theorem step_command_read {s : State} {i : Instr} {off : Nat} {es : List HostEvent} (hrun : s.phase = .running)
    (hwf : i.WellFormed) (hp : s.pending = .write 64 0x108 (encode i) :: .read 64 off :: es)
    (hoff : off % 8 = 0 ∧ off < 0x1000) :
    ∃ s₁ s₂, exec i (s.withPending (.read 64 off :: es)).nextAccess = .next s₁ ∧ step s = .next s₁ ∧
      step s₁ = .next s₂ ∧ s₂.answers = hostRead off s₁.nextAccess :: s.answers := by
  obtain ⟨s₁, hexec⟩ := exec_completes i (s.withPending (.read 64 off :: es)).nextAccess
  have hw := (execute_of_decode (decode_encode hwf) _).trans hexec
  obtain ⟨hs₁, s₂, hs₂, hans⟩ :=
    step_write_read hrun hp (by decide) hoff hw (exec_sameOutside hexec)
  exact ⟨s₁, s₂, hexec, hs₁, hs₂, hans⟩

/-- A read of a written limb returns its value, whenever it is made. -/
theorem hostRead_nextAccess_of_written {s : State} {n : LimbName} (h : s.isWritten n = true) :
    hostRead n.offset s.nextAccess = (s.cell n).value := by
  have hcell : s.nextAccess.cell n = s.cell n := State.cell_congr rfl rfl n
  have hw : s.nextAccess.isWritten n = true := by rwa [State.isWritten, hcell]
  rw [hostRead_limb, State.readLimb_of_written hw, hcell]

/-! ### The limbs a command writes are written (R44, R45) -/

theorem limbsWritten_of_xDest {i : Instr} {d : XField} (h : xDest i = some d) : limbsWritten i = xLimbs d := by
  cases i <;> cases h <;> rfl

theorem limbsWritten_of_wDest {i : Instr} {d : BitVec 2} (h : wDest i = some d) : limbsWritten i = wLimbs d := by
  cases i <;> cases h <;> rfl

theorem State.writeX_marks (s : State) {i : BitVec 3} {n : LimbName} (h : n ∈ xLimbs i) (v : Limb128) :
    (s.writeX i v).isWritten n = true := by
  obtain rfl | rfl : n = .x i .lo ∨ n = .x i .hi := by simpa [xLimbs] using h
  · rw [State.isWritten, State.writeX_cell_lo]
  · rw [State.isWritten, State.writeX_cell_hi]

theorem State.writeW_marks (s : State) {j : BitVec 2} {n : LimbName} (h : n ∈ wLimbs j) (v : Limb256) :
    (s.writeW j v).isWritten n = true := by
  obtain ⟨k, rfl⟩ : ∃ k, n = .w j k := by
    simp only [wLimbs, List.mem_cons, List.not_mem_nil, or_false] at h
    rcases h with h | h | h | h <;> exact ⟨_, h⟩
  rw [State.isWritten, State.writeW_cell]

/-- Every limb that a command writes is written in the state it leaves. -/
theorem exec_marks {i : Instr} {s t : State} {n : LimbName} (h : exec i s = .next t) (hn : n ∈ limbsWritten i) :
    t.isWritten n = true := by
  rcases dest_cases i with ⟨d, hd⟩ | ⟨d, hd⟩ | ⟨ra, rb, rfl⟩ | rfl
  · obtain ⟨f, dom, v, he, -⟩ := exec_of_xDest hd s
    cases he.symm.trans h
    exact State.writeX_marks _ (limbsWritten_of_xDest hd ▸ hn) v
  · obtain ⟨v, he⟩ := exec_of_wDest hd s
    cases he.symm.trans h
    exact State.writeW_marks _ (limbsWritten_of_wDest hd ▸ hn) v
  · cases hn
  · cases hn

/-! ### A limb or STATUS read right after it was written (R69) -/

/-- A limb write, then a read of the limb. -/
theorem limbRead_after_limbWrite {s : State} {n : LimbName} {v : Limb} {es : List HostEvent}
    (hrun : s.phase = .running) (hp : s.pending = .write 64 n.offset v :: .read 64 n.offset :: es) :
    ∃ s₁ s₂, step s = .next s₁ ∧ step s₁ = .next s₂ ∧ s₂.answers = v :: s.answers := by
  obtain ⟨hs₁, s₂, hs₂, hans⟩ := step_write_read hrun hp n.offset_supported n.offset_supported
    (hostWrite_limb n v _) (State.writeLimb_sameOutside _ n v)
  have hcell := State.writeLimb_cell_same (s.withPending (.read 64 n.offset :: es)).nextAccess n v
  rw [hostRead_nextAccess_of_written (by rw [State.isWritten, hcell]), hcell] at hans
  exact ⟨_, s₂, hs₁, hs₂, hans⟩

/-- The CMD write of a well-formed command, then a read of a limb that the command writes. -/
theorem limbRead_after_command {s : State} {i : Instr} {n : LimbName} {es : List HostEvent}
    (hrun : s.phase = .running) (hwf : i.WellFormed) (hn : n ∈ limbsWritten i)
    (hp : s.pending = .write 64 0x108 (encode i) :: .read 64 n.offset :: es) :
    ∃ s₁ s₂, exec i (s.withPending (.read 64 n.offset :: es)).nextAccess = .next s₁ ∧ step s = .next s₁ ∧
      step s₁ = .next s₂ ∧ s₂.answers = (s₁.cell n).value :: s.answers ∧
      ∀ p, s₁.readLimb p n = (s₁.cell n).value := by
  obtain ⟨s₁, s₂, hexec, hs₁, hs₂, hans⟩ := step_command_read hrun hwf hp n.offset_supported
  have hw := exec_marks hexec hn
  rw [hostRead_nextAccess_of_written hw] at hans
  exact ⟨s₁, s₂, hexec, hs₁, hs₂, hans, State.readLimb_of_written hw⟩

/-- The CMD write of a well-formed command, then a read of STATUS. -/
theorem statusRead_after_command {s : State} {i : Instr} {es : List HostEvent}
    (hrun : s.phase = .running) (hwf : i.WellFormed)
    (hp : s.pending = .write 64 0x108 (encode i) :: .read 64 0x100 :: es) :
    ∃ s₁ s₂, exec i (s.withPending (.read 64 0x100 :: es)).nextAccess = .next s₁ ∧ step s = .next s₁ ∧
      step s₁ = .next s₂ ∧ s₂.answers = statusWord s₁.status :: s.answers :=
  step_command_read hrun hwf hp (by decide)

/-- Settles O49: each clause is one of the pairs above, with what the write leaves in the limb or in STATUS. -/
theorem nextReadSeesTheWrite : Obligations.NextReadSeesTheWrite := by
  unfold Obligations.NextReadSeesTheWrite
  refine ⟨fun s n v es hrun hp => limbRead_after_limbWrite hrun hp, fun s v es hrun hp => ?statusWrite,
    fun s i n es hrun hwf hn hp => limbRead_after_command hrun hwf hn hp, fun s i es hrun hwf hp => ?status,
    fun s rd ra rb es hrun hp => ?add, fun s ra rb es hrun hp => ?cmp, fun s rd ra es hrun hp => ?lls,
    fun s v why es hrun hdec hp => ?illegal⟩
  case statusWrite =>
    obtain ⟨hs₁, s₂, hs₂, hans⟩ := step_write_read hrun hp (by decide) (by decide)
      (hostWrite_status v _) ⟨rfl, rfl, rfl, rfl, rfl⟩
    refine ⟨_, s₂, _, hs₁, hs₂, hans, ?_⟩
    rw [hostRead_status, statusWord_toNat]
    simp
  case status =>
    obtain ⟨s₁, s₂, hexec, hs₁, hs₂, hans⟩ := statusRead_after_command hrun hwf hp
    exact ⟨s₁, s₂, _, hexec, hs₁, hs₂, hans, statusWord_toNat _⟩
  case add =>
    obtain ⟨s₁, s₂, hexec, hs₁, hs₂, hans, -⟩ :=
      limbRead_after_command (i := .add rd ra rb) (n := .x rd .lo) hrun rfl (by simp [limbsWritten, xLimbs]) hp
    refine ⟨s₁, s₂, hs₁, hs₂, ?_⟩
    cases hexec
    rw [hans, State.writeX_cell_lo]
    rfl
  case cmp =>
    obtain ⟨s₁, s₂, hexec, hs₁, hs₂, hans⟩ := statusRead_after_command (i := .cmp ra rb) hrun rfl hp
    refine ⟨s₁, s₂, _, hs₁, hs₂, hans, ?_⟩
    cases hexec
    rw [statusWord_cmp, State.setCmp_status]
    change (cmpFieldOf (cmp128 (s.nextAccess.readX .a ra) (s.nextAccess.readX .b rb))).bits = _
    cases cmp128 (s.nextAccess.readX .a ra) (s.nextAccess.readX .b rb) <;> rfl
  case lls =>
    obtain ⟨s₁, s₂, hexec, hs₁, hs₂, hans⟩ := statusRead_after_command (i := .lls rd ra) hrun rfl hp
    refine ⟨s₁, s₂, _, hs₁, hs₂, hans, ?_⟩
    rw [statusWord_dom, exec_lls_status hexec]
    change (s.status.dom || outsideDomain (s.nextAccess.readX .a ra)) = true ↔ _
    simp [outsideDomain_eq]
  case illegal =>
    obtain ⟨hs₁, s₂, hs₂, hans⟩ := step_write_read hrun hp (by decide) (by decide)
      (execute_of_illegal hdec _) ⟨rfl, rfl, rfl, rfl, rfl⟩
    refine ⟨_, s₂, _, hs₁, hs₂, hans, ?_⟩
    rw [hostRead_status, statusWord_ill]
    rfl

end Sys2Proof.Machine

/-! Encoding and decoding as inverses (R90 to R99, R102 to R104): the decoder answers a row of the opcode map, a word of a
row is the encoding of the command the row builds from it, and the fields of a legal word are those of a well-formed
command. -/

namespace Sys2Proof

open Machine

/-! ### The decoder and the opcode map (R90, R97, R98) -/

/-- Settles O1: the word is of the command's own row, which reads the command back from it. -/
theorem decodeEncodeRoundTrip : Obligations.DecodeEncodeRoundTrip :=
  fun _ => decode_encode

/-- The word decoder answers a row that the word is of, with the row's fields (R97). -/
theorem decodeWord_eq_ok_iff {w : CmdWord} {i : Instr} :
    decodeWord w = .ok i ↔ ∃ r ∈ opcodeRows, r.hits w = true ∧ i = r.build w := by
  constructor
  · exact hits_of_decodeWord
  · rintro ⟨r, hr, hits, rfl⟩
    exact decodeWord_of_hits hr hits

/-- A CMD value is decoded as its low half, if its high half is zero (R90). -/
theorem decode_eq_ok_iff {v : BitVec 64} {i : Instr} :
    decode v = .ok i ↔ v.extractLsb' 32 32 = 0 ∧ decodeWord (v.extractLsb' 0 32) = .ok i := by
  unfold decode
  split
  case isTrue hhi => exact iff_of_false nofun fun h => hhi h.1
  case isFalse hhi => exact (and_iff_right (not_not.1 hhi)).symm

/-- At most one row matches a word (R98). -/
theorem row_unique {r q : OpcodeRow} (hr : r ∈ opcodeRows) (hq : q ∈ opcodeRows) {w : CmdWord}
    (hrw : r.hits w = true) (hqw : q.hits w = true) : r = q :=
  row_eq_of_opField hr hq ((opField_of_hits hr hrw).symm.trans (opField_of_hits hq hqw))

/-- Settles O3: the statement's rows are those of `opcodeRows`. -/
theorem legalIffOneRowMatches : Obligations.LegalIffOneRowMatches := by
  unfold Obligations.LegalIffOneRowMatches
  intro xd xa xb imm limb rows
  have hrows : rows = opcodeRows.map fun r => (r.pattern, r.mask, r.build) := rfl
  rw [hrows]
  refine ⟨fun v i => ?_, fun w => ?_⟩
  · simp [decode_eq_ok_iff, decodeWord_eq_ok_iff, OpcodeRow.hits]
  · simp only [List.forall_mem_map]
    intro r hr q hq hrw hqw
    rw [row_unique hr hq (beq_iff_eq.2 hrw) (beq_iff_eq.2 hqw)]

/-! ### The bits that a row fixes (R97) -/

/-- A field that the row's mask covers is the pattern's. -/
theorem extractLsb'_of_hits {r : OpcodeRow} {w : CmdWord} (h : r.hits w = true) (start len : Nat)
    (hm : r.mask.extractLsb' start len = BitVec.allOnes len) :
    w.extractLsb' start len = r.pattern.extractLsb' start len := by
  rw [OpcodeRow.hits, beq_iff_eq] at h
  rw [← h, BitVec.extractLsb'_and, hm, BitVec.and_allOnes]

/-! ### A word is made of its fields (R91, R92) -/

/-- The bit of a limb select read from a word is the word's bit. -/
theorem limbSelOfBit_bit (w : CmdWord) (n : Nat) : (limbSelOfBit (w.getLsbD n)).bit = w.extractLsb' n 1 := by
  apply BitVec.eq_of_getLsbD_eq
  intro k hk
  obtain rfl : k = 0 := by omega
  cases h : w.getLsbD n <;> simp [limbSelOfBit, LimbSel.bit, h]

/-- A bit of a field that is zero is zero. -/
theorem getElem_of_extractLsb'_eq_zero {w : CmdWord} {start len : Nat} (h : w.extractLsb' start len = 0) {n : Nat}
    (hn : n < 32) (hstart : start ≤ n) (hlen : n < start + len) : w[n] = false := by
  have hbit := congrArg (BitVec.getLsbD · (n - start)) h
  simpa [Nat.add_sub_cancel' hstart, Nat.sub_lt_left_of_lt_add hstart hlen, BitVec.getLsbD_eq_getElem hn] using hbit

/-- A word whose bits 16:0 are zero is the format R word of its fields. -/
theorem formatR_fields {w : CmdWord} {op : BitVec 4} {rd ra rb : BitVec 3} {sa sb : BitVec 1}
    (hop : opField w = op) (hrd : rdField w = rd) (hra : raField w = ra) (hrb : rbField w = rb)
    (hsa : w.extractLsb' 18 1 = sa) (hsb : w.extractLsb' 17 1 = sb) (hlow : w.extractLsb' 0 17 = 0) :
    formatR op rd ra rb sa sb = w := by
  subst hop hrd hra hrb hsa hsb
  have hz {n : Nat} (hn : n < 32) := getElem_of_extractLsb'_eq_zero hlow hn
  apply BitVec.eq_of_getLsbD_eq
  intro n hn
  interval_cases n <;> simp [formatR, opField, rdField, raField, rbField, hz]

/-- A word whose bits 18:0 are zero is the format R word of its register fields. -/
theorem formatR_registers {w : CmdWord} {op : BitVec 4} {rd ra rb : BitVec 3}
    (hop : opField w = op) (hrd : rdField w = rd) (hra : raField w = ra) (hrb : rbField w = rb)
    (hlow : w.extractLsb' 0 19 = 0) : formatR op rd ra rb 0 0 = w := by
  have hz {start len : Nat} (h : start + len ≤ 19) : w.extractLsb' start len = 0 := by
    rw [← BitVec.extractLsb'_extractLsb'_of_le h, hlow]
    exact BitVec.extractLsb'_zero
  exact formatR_fields hop hrd hra hrb (hz (by decide)) (hz (by decide)) (hz (by decide))

/-- A word whose bits 21:16 are zero is the format I word of its fields. -/
theorem formatI_fields {w : CmdWord} {op : BitVec 4} {rd ra : BitVec 3} {imm : BitVec 16}
    (hop : opField w = op) (hrd : rdField w = rd) (hra : raField w = ra) (himm : immField w = imm)
    (hmid : w.extractLsb' 16 6 = 0) : formatI op rd ra imm = w := by
  subst hop hrd hra himm
  have hz {n : Nat} (hn : n < 32) := getElem_of_extractLsb'_eq_zero hmid hn
  apply BitVec.eq_of_getLsbD_eq
  intro n hn
  interval_cases n <;> simp [formatI, opField, rdField, raField, immField, hz]

/-- A word of a row is the encoding of the command that the row builds: what the row's mask does not cover, the
command's operands hold. -/
theorem encodeWord_build {r : OpcodeRow} (hr : r ∈ opcodeRows) {w : CmdWord} (h : r.hits w = true) :
    encodeWord (r.build w) = w := by
  have fixed := extractLsb'_of_hits h
  have sel (n : Nat) := (limbSelOfBit_bit w n).symm
  simp only [opcodeRows, List.mem_cons, List.not_mem_nil, or_false] at hr
  rcases hr with rfl | rfl | rfl | rfl | rfl | rfl | rfl | rfl | rfl | rfl | rfl | rfl
  · -- NOP
    exact formatR_registers (fixed 28 4 rfl) (fixed 25 3 rfl) (fixed 22 3 rfl) (fixed 19 3 rfl) (fixed 0 19 rfl)
  · -- ADD
    exact formatR_registers (fixed 28 4 rfl) rfl rfl rfl (fixed 0 19 rfl)
  · -- SUB
    exact formatR_registers (fixed 28 4 rfl) rfl rfl rfl (fixed 0 19 rfl)
  · -- CMP
    exact formatR_registers (fixed 28 4 rfl) (fixed 25 3 rfl) rfl rfl (fixed 0 19 rfl)
  · -- MULW
    exact formatR_fields (fixed 28 4 rfl) rfl rfl rfl (sel 18) (sel 17) (fixed 0 17 rfl)
  · -- SQR
    exact formatR_registers (fixed 28 4 rfl) rfl rfl (fixed 19 3 rfl) (fixed 0 19 rfl)
  · -- SUBW
    exact formatR_registers (fixed 28 4 rfl) rfl rfl rfl (fixed 0 19 rfl)
  · -- SUBWI
    exact formatI_fields (fixed 28 4 rfl) rfl rfl rfl (fixed 16 6 rfl)
  · -- RED
    exact formatR_registers (fixed 28 4 rfl) rfl rfl (fixed 19 3 rfl) (fixed 0 19 rfl)
  · -- LLS
    exact formatR_registers (fixed 28 4 rfl) rfl rfl (fixed 19 3 rfl) (fixed 0 19 rfl)
  · -- LDI
    exact formatI_fields (fixed 28 4 rfl) rfl (fixed 22 3 rfl) rfl (fixed 16 6 rfl)
  · -- LDM
    exact formatR_registers (fixed 28 4 rfl) rfl (fixed 22 3 rfl) (fixed 19 3 rfl) (fixed 0 19 rfl)

/-! ### A legal value is well formed (R94, R97) -/

/-- The field RD names a W register where word[27] is zero. -/
theorem rdField_ok {w : CmdWord} (h : w.extractLsb' 27 1 = 0) : WField.ok (rdField w) = true := by
  simp [WField.ok, rdField, getElem_of_extractLsb'_eq_zero h]

/-- The field RA names a W register where word[24] is zero. -/
theorem raField_ok {w : CmdWord} (h : w.extractLsb' 24 1 = 0) : WField.ok (raField w) = true := by
  simp [WField.ok, raField, getElem_of_extractLsb'_eq_zero h]

/-- A row builds well-formed commands from its words: its mask covers the reserved bits of its W fields. -/
theorem wellFormed_build {r : OpcodeRow} (hr : r ∈ opcodeRows) {w : CmdWord} (h : r.hits w = true) :
    (r.build w).WellFormed := by
  have fixed := extractLsb'_of_hits h
  simp only [opcodeRows, List.mem_cons, List.not_mem_nil, or_false] at hr
  rcases hr with rfl | rfl | rfl | rfl | rfl | rfl | rfl | rfl | rfl | rfl | rfl | rfl
  any_goals rfl
  · -- SQR
    exact rdField_ok (fixed 27 1 rfl)
  · -- SUBW
    exact Bool.and_eq_true_iff.2 ⟨rdField_ok (fixed 27 1 rfl), raField_ok (fixed 24 1 rfl)⟩
  · -- SUBWI
    exact Bool.and_eq_true_iff.2 ⟨rdField_ok (fixed 27 1 rfl), raField_ok (fixed 24 1 rfl)⟩
  · -- RED
    exact raField_ok (fixed 24 1 rfl)

/-- A value whose high half is zero is its low half, zero-extended. -/
theorem setWidth_low_half {v : BitVec 64} (h : v.extractLsb' 32 32 = 0) : (v.extractLsb' 0 32).setWidth 64 = v := by
  rw [BitVec.setWidth_eq_append (by decide)]
  calc (0 : BitVec 32) ++ v.extractLsb' 0 32 = v.extractLsb' 32 32 ++ v.extractLsb' 0 32 := by rw [h]
    _ = v := BitVec.extractLsb'_append_extractLsb'

/-- Settles O2: a legal value is its word, and the word is of a row. -/
theorem legalValueIsItsEncoding : Obligations.LegalValueIsItsEncoding := by
  unfold Obligations.LegalValueIsItsEncoding
  intro v i hdec
  obtain ⟨hhi, hword⟩ := decode_eq_ok_iff.1 hdec
  obtain ⟨r, hr, hits, rfl⟩ := decodeWord_eq_ok_iff.1 hword
  exact ⟨wellFormed_build hr hits, by rw [encode, encodeWord_build hr hits, setWidth_low_half hhi]⟩

/-! ### The fields of a legal word: none of the cases of R99 -/

theorem WField.toNat_lt_four {f : WField} (h : WField.ok f = true) : f.toNat < 4 := by
  revert f
  decide

theorem opField_encodeWord_lt (i : Instr) : (opField (encodeWord i)).toNat < 12 := by
  cases i <;> simp [encodeWord]

/-- The destination of SQR, SUBW and SUBWI is W0 to W3. -/
theorem rdField_encodeWord_lt {i : Instr} (hwf : i.WellFormed)
    (hop : (opField (encodeWord i)).toNat = 5 ∨ (opField (encodeWord i)).toNat = 6 ∨
      (opField (encodeWord i)).toNat = 7) : (rdField (encodeWord i)).toNat < 4 := by
  cases i with
  | sqr rd ra => simpa [encodeWord] using WField.toNat_lt_four hwf
  | subw rd ra rb => simpa [encodeWord] using WField.toNat_lt_four (Bool.and_eq_true_iff.1 hwf).1
  | subwi rd ra imm => simpa [encodeWord] using WField.toNat_lt_four (Bool.and_eq_true_iff.1 hwf).1
  | _ => simp [encodeWord] at hop

/-- The source of SUBW, SUBWI and RED is W0 to W3. -/
theorem raField_encodeWord_lt {i : Instr} (hwf : i.WellFormed)
    (hop : (opField (encodeWord i)).toNat = 6 ∨ (opField (encodeWord i)).toNat = 7 ∨
      (opField (encodeWord i)).toNat = 8) : (raField (encodeWord i)).toNat < 4 := by
  cases i with
  | subw rd ra rb => simpa [encodeWord] using WField.toNat_lt_four (Bool.and_eq_true_iff.1 hwf).2
  | subwi rd ra imm => simpa [encodeWord] using WField.toNat_lt_four (Bool.and_eq_true_iff.1 hwf).2
  | red rd ra => simpa [encodeWord] using WField.toNat_lt_four hwf
  | _ => simp [encodeWord] at hop

/-- CMP has no destination. -/
theorem rdField_encodeWord_cmp {i : Instr} (hop : (opField (encodeWord i)).toNat = 3) :
    rdField (encodeWord i) = 0 := by
  cases i with
  | cmp ra rb => simp [encodeWord]
  | _ => simp [encodeWord] at hop

/-- Bits 21:19 are reserved in format I. -/
@[simp] theorem rbField_formatI (op : BitVec 4) (rd ra : BitVec 3) (imm : BitVec 16) :
    rbField (formatI op rd ra imm) = 0 := by
  apply BitVec.eq_of_getLsbD_eq
  intro i hi
  interval_cases i <;> simp [rbField, formatI]

/-- LDI and LDM have no source. -/
theorem sources_encodeWord_load {i : Instr}
    (hop : (opField (encodeWord i)).toNat = 10 ∨ (opField (encodeWord i)).toNat = 11) :
    raField (encodeWord i) = 0 ∧ rbField (encodeWord i) = 0 := by
  cases i with
  | ldi rd imm => simp [encodeWord]
  | ldm rd => simp [encodeWord]
  | _ => simp [encodeWord] at hop

/-- SQR, RED and LLS have one source. -/
theorem rbField_encodeWord_unary {i : Instr}
    (hop : (opField (encodeWord i)).toNat = 5 ∨ (opField (encodeWord i)).toNat = 8 ∨
      (opField (encodeWord i)).toNat = 9) : rbField (encodeWord i) = 0 := by
  cases i with
  | sqr rd ra => simp [encodeWord]
  | red rd ra => simp [encodeWord]
  | lls rd ra => simp [encodeWord]
  | _ => simp [encodeWord] at hop

/-- The word of OP 0 is the zero word. -/
theorem encodeWord_nop {i : Instr} (hop : (opField (encodeWord i)).toNat = 0) : encodeWord i = 0 := by
  cases i with
  | nop => rfl
  | _ => simp [encodeWord] at hop

/-- The reserved-zero bits of a row, those that its mask covers below OP, are zero in every legal word of its OP. -/
theorem encodeWord_and_reserved {i : Instr} (hwf : i.WellFormed) {r : OpcodeRow} (hr : r ∈ opcodeRows)
    (hop : (opField (encodeWord i)).toNat = (opField r.pattern).toNat) :
    encodeWord i &&& (r.mask &&& 0x0FFFFFFF) = 0 := by
  have hits := (encodeWord_row i hwf).1
  obtain rfl : i.row = r :=
    row_eq_of_opField i.row_mem hr ((opField_of_hits i.row_mem hits).symm.trans (BitVec.eq_of_toNat_eq hop))
  have hpattern : ∀ r ∈ opcodeRows, r.pattern &&& 0x0FFFFFFF = 0 := by decide
  rw [← BitVec.and_assoc, beq_iff_eq.1 hits, hpattern _ hr]

/-! ### Illegal values (R99) -/

/-- A field of a command's CMD value is the word's. -/
theorem extractLsb'_encode (i : Instr) {start len : Nat} (h : start + len ≤ 64) :
    (encode i).extractLsb' start len = (encodeWord i).extractLsb' start len :=
  BitVec.extractLsb'_setWidth_of_le h

theorem encode_toNat_lt (i : Instr) : (encode i).toNat < 2 ^ 32 := by
  rw [encode, BitVec.toNat_setWidth_of_le (by decide)]
  exact (encodeWord i).isLt

/-- Settles O4: a legal value is the encoding of a well-formed command, whose word meets none of the cases. -/
theorem listedCasesAreIllegal : Obligations.ListedCasesAreIllegal := by
  unfold Obligations.ListedCasesAreIllegal
  intro reserved v w op rd ra rb hcase
  suffices hillegal : ∃ why, decode v = .error why by
    obtain ⟨why, hwhy⟩ := hillegal
    exact ⟨⟨why, hwhy⟩, execute_of_illegal hwhy⟩
  cases hdec : decode v with
  | error why => exact ⟨why, rfl⟩
  | ok i =>
    exfalso
    obtain ⟨hwf, rfl⟩ := legalValueIsItsEncoding v i hdec
    have hreserved : reserved = opcodeRows.map fun r => ((opField r.pattern).toNat, r.mask &&& 0x0FFFFFFF) := rfl
    have hw : w = encodeWord i := (extractLsb'_encode i (by decide)).trans BitVec.extractLsb'_eq_self
    have hop : op = (opField (encodeWord i)).toNat := congrArg BitVec.toNat (extractLsb'_encode i (by decide))
    have hrd : rd = (rdField (encodeWord i)).toNat := congrArg BitVec.toNat (extractLsb'_encode i (by decide))
    have hra : ra = (raField (encodeWord i)).toNat := congrArg BitVec.toNat (extractLsb'_encode i (by decide))
    have hrb : rb = (rbField (encodeWord i)).toNat := congrArg BitVec.toNat (extractLsb'_encode i (by decide))
    rw [hreserved, hop, hrd, hra, hrb, hw] at hcase
    rcases hcase with h | h | ⟨r, hr, hop, h⟩ | ⟨hop, h⟩ | ⟨hop, h⟩ | ⟨hop, h⟩ | ⟨hop, h⟩ | ⟨hop, h⟩ | ⟨hop, h⟩
    · exact h (Nat.div_eq_of_lt (encode_toNat_lt i))
    · exact absurd (opField_encodeWord_lt i) (Nat.not_lt.2 h)
    · obtain ⟨q, hq, rfl⟩ := List.mem_map.1 hr
      exact h (encodeWord_and_reserved hwf hq hop)
    · exact absurd (rdField_encodeWord_lt hwf hop) (Nat.not_lt.2 h)
    · exact absurd (raField_encodeWord_lt hwf hop) (Nat.not_lt.2 h)
    · simp [rdField_encodeWord_cmp hop] at h
    · simp [sources_encodeWord_load hop] at h
    · simp [rbField_encodeWord_unary hop] at h
    · exact h (encodeWord_nop hop)

/-- Settles O6: each example is a well-formed command, and the two directions are `decode_encode`. -/
theorem specEncodingExamples : Obligations.SpecEncodingExamples := by
  unfold Obligations.SpecEncodingExamples
  intro examples
  have hencode : ∀ e ∈ examples, e.1.WellFormed ∧ encode e.1 = e.2 := by decide
  intro e he
  obtain ⟨hwf, henc⟩ := hencode e he
  exact ⟨henc, henc ▸ decode_encode hwf⟩

end Sys2Proof

/-! The pseudo-instruction tstz (R103). -/

namespace Sys2Proof.Machine

/-- The compare answers EQUAL on equal values only (R124). -/
theorem cmp128_eq_equal_iff (a b : Limb128) : cmp128 a b = .equal ↔ a = b := by
  rw [← BitVec.toNat_inj]
  simp only [cmp128, hi128_toNat, lo128_toNat]
  split_ifs <;> simp <;> omega

/-- What a read of an X register returns depends on its limbs, on the access number and on the stream of free values. -/
theorem State.readX_congr {s t : State} {i : BitVec 3} (h : ∀ l, t.cell (.x i l) = s.cell (.x i l))
    (ha : t.accessNo = s.accessNo) (hf : t.freeStream = s.freeStream) (p : Config.ReadPort) :
    t.readX p i = s.readX p i := by
  rw [State.readX, State.readX, State.readLimb_congr (h .lo) ha hf, State.readLimb_congr (h .hi) ha hf]

/-- A write of one X register leaves what another reads as. -/
theorem State.readX_writeX_ne (s : State) {i j : BitVec 3} (h : j ≠ i) (p : Config.ReadPort) (v : Limb128) :
    (s.writeX i v).readX p j = s.readX p j :=
  State.readX_congr (fun l => State.writeX_cell_ne s (by simp [xLimbs, h]) v) rfl rfl p

theorem cmpFieldOf_eq_equal_iff (r : Comparison) : cmpFieldOf r = .equal ↔ r = .equal := by
  cases r <;> simp [cmpFieldOf]

theorem assemble_tstz (a t : BitVec 3) :
    assemble ['t', 's', 't', 'z'] [.x a, .x t] = if t = a then none else some [.ldi t 0, .cmp a t] :=
  rfl

/-- Settles O7: LDI leaves X[a] as it was and X[t] at 0, which CMP compares and keeps. -/
theorem pseudoTstzTestsForZero : Obligations.PseudoTstzTestsForZero := by
  unfold Obligations.PseudoTstzTestsForZero
  intro a t
  refine ⟨fun h => by rw [assemble_tstz, if_pos h], fun h => ⟨by rw [assemble_tstz, if_neg h], fun s => ?_⟩⟩
  have ha : (s.writeX t 0).readX .a a = s.readX .a a := s.readX_writeX_ne (Ne.symm h) .a 0
  have ht (p : Config.ReadPort) : (s.writeX t 0).readX p t = 0 := s.readX_writeX_same p t 0
  refine ⟨s.writeX t 0, _, rfl, exec_cmp a t _, ?_, ?_⟩
  · rw [State.setCmp_status, cmpFieldOf_eq_equal_iff, cmp128_eq_equal_iff, ha, ht]
  · exact (State.readX_congr (fun _ => State.cell_congr rfl rfl _) rfl rfl .a).trans (ht .a)

end Sys2Proof.Machine

/-! The double-limb ALU (R120 to R126): add128, sub128 and cmp128 by their numbers and by their limbs, and what ADD, SUB
and CMP leave. -/

namespace Sys2Proof.Machine

/-! ### The adder (R120) -/

/-- The sum of two limbs wraps exactly when it falls below the first of them. -/
theorem limb_add_lt_left_iff (x y : Limb) : (x + y).toNat < x.toNat ↔ 2 ^ 64 ≤ x.toNat + y.toNat := by
  have hx := x.isLt
  have hy := y.isLt
  rw [BitVec.toNat_add]
  omega

theorem limb_add_lt_right_iff (x y : Limb) : (x + y).toNat < y.toNat ↔ 2 ^ 64 ≤ x.toNat + y.toNat := by
  rw [BitVec.add_comm, limb_add_lt_left_iff, Nat.add_comm]

theorem lo128_add128 (a b : Limb128) : lo128 (add128 a b) = lo128 a + lo128 b := by
  apply BitVec.eq_of_toNat_eq
  rw [BitVec.toNat_add, lo128_toNat, lo128_toNat, lo128_toNat, add128_toNat]
  omega

/-- The high limb of the sum takes the carry out of the low limbs. -/
theorem hi128_add128 (a b : Limb128) : hi128 (add128 a b)
    = hi128 a + hi128 b + if (lo128 a + lo128 b).toNat < (lo128 a).toNat then 1 else 0 := by
  apply BitVec.eq_of_toNat_eq
  simp only [limb_add_lt_left_iff]
  simp only [BitVec.toNat_add, hi128_toNat, lo128_toNat, add128_toNat, apply_ite BitVec.toNat, BitVec.ofNat_eq_ofNat,
    BitVec.toNat_ofNat]
  split_ifs <;> omega

theorem add128Limbs_eq (a b : Limb128) : add128Limbs a b = add128 a b := by
  rw [← join128_hi128_lo128 (add128 a b), hi128_add128, lo128_add128, add128Limbs]

theorem add128_comm (a b : Limb128) : add128 a b = add128 b a := by
  rw [add128, add128, Nat.add_comm]

/-- Settles O23: the limbs of the sum are those of the procedure, and either addend shows the wrap of the low limbs. -/
theorem adderIsSumModulo : Obligations.AdderIsSumModulo := fun a b =>
  ⟨add128_toNat a b, add128Limbs_eq a b,
    (limb_add_lt_left_iff _ _).trans (limb_add_lt_right_iff _ _).symm, limb_add_lt_left_iff _ _⟩

/-! ### The subtractor (R122) -/

theorem sub128_toInt (a b : Limb128) : ((sub128 a b).toNat : Int) = ((a.toNat : Int) - b.toNat) % 2 ^ 128 := by
  rw [sub128_toNat]
  have := b.isLt
  omega

/-- The difference of two limbs wraps exactly when it exceeds the minuend. -/
theorem limb_lt_sub_iff (x y : Limb) : x.toNat < (x - y).toNat ↔ x.toNat < y.toNat := by
  have hx := x.isLt
  have hy := y.isLt
  rw [BitVec.toNat_sub]
  omega

theorem lo128_sub128 (a b : Limb128) : lo128 (sub128 a b) = lo128 a - lo128 b := by
  apply BitVec.eq_of_toNat_eq
  have hb := b.isLt
  rw [BitVec.toNat_sub, lo128_toNat, lo128_toNat, lo128_toNat, sub128_toNat]
  omega

/-- The high limb of the difference gives the borrow of the low limbs. -/
theorem hi128_sub128 (a b : Limb128) : hi128 (sub128 a b)
    = hi128 a - hi128 b - if (lo128 a).toNat < (lo128 a - lo128 b).toNat then 1 else 0 := by
  apply BitVec.eq_of_toNat_eq
  have ha := a.isLt
  have hb := b.isLt
  simp only [limb_lt_sub_iff]
  simp only [BitVec.toNat_sub, hi128_toNat, lo128_toNat, sub128_toNat, apply_ite BitVec.toNat, BitVec.ofNat_eq_ofNat,
    BitVec.toNat_ofNat]
  split_ifs <;> omega

theorem sub128Limbs_eq (a b : Limb128) : sub128Limbs a b = sub128 a b := by
  rw [← join128_hi128_lo128 (sub128 a b), hi128_sub128, lo128_sub128, sub128Limbs]

theorem sub128_add128 (a b : Limb128) : sub128 (add128 a b) b = a := by
  apply BitVec.eq_of_toNat_eq
  have ha := a.isLt
  have hb := b.isLt
  rw [sub128_toNat, add128_toNat]
  omega

theorem sub128_eq_zero_iff (a b : Limb128) : sub128 a b = 0 ↔ a = b := by
  have ha := a.isLt
  have hb := b.isLt
  rw [← BitVec.toNat_inj, ← BitVec.toNat_inj, sub128_toNat, BitVec.ofNat_eq_ofNat, BitVec.toNat_zero]
  omega

/-- Settles O24: the limbs of the difference are those of the procedure. -/
theorem subtractorIsDifferenceModulo : Obligations.SubtractorIsDifferenceModulo := fun a b =>
  ⟨sub128_toInt a b, sub128Limbs_eq a b, limb_lt_sub_iff _ _⟩

/-! ### The comparator (R124) -/

theorem cmp128_eq_less_iff (a b : Limb128) : cmp128 a b = .less ↔ a.toNat < b.toNat := by
  simp only [cmp128, hi128_toNat, lo128_toNat]
  split_ifs <;> simp <;> omega

theorem cmp128_eq_greater_iff (a b : Limb128) : cmp128 a b = .greater ↔ b.toNat < a.toNat := by
  simp only [cmp128, hi128_toNat, lo128_toNat]
  split_ifs <;> simp <;> omega

/-- Settles O25, a lemma for each result. -/
theorem comparatorIsUnsignedOrder : Obligations.ComparatorIsUnsignedOrder := fun a b =>
  ⟨cmp128_eq_less_iff a b, cmp128_eq_equal_iff a b, cmp128_eq_greater_iff a b⟩

/-- The sum modulo 2^128 is below an addend exactly when it wraps. -/
theorem add128_lt_left_iff (a b : Limb128) : (add128 a b).toNat < a.toNat ↔ 2 ^ 128 ≤ a.toNat + b.toNat := by
  have ha := a.isLt
  have hb := b.isLt
  rw [add128_toNat]
  omega

/-- The compare result as the two bits of STATUS.CMP, by the order of the numbers (R36, R125). -/
theorem cmpFieldOf_cmp128_bits (a b : Limb128) : (cmpFieldOf (cmp128 a b)).bits
    = if a.toNat < b.toNat then 0b01#2 else if a.toNat = b.toNat then 0b10#2 else 0b11#2 := by
  cases h : cmp128 a b with
  | less => rw [if_pos ((cmp128_eq_less_iff a b).1 h)]; rfl
  | equal => rw [(cmp128_eq_equal_iff a b).1 h, if_neg (Nat.lt_irrefl _), if_pos rfl]; rfl
  | greater =>
    have hlt := (cmp128_eq_greater_iff a b).1 h
    rw [if_neg hlt.asymm, if_neg hlt.ne']
    rfl

/-! ### ADD, SUB and CMP (R121, R123, R125) -/

/-- The word of a well-formed command has the match of the command's row under its mask (R97). -/
theorem encodeWord_and_mask {i : Instr} (h : i.WellFormed) : encodeWord i &&& i.row.mask = i.row.pattern :=
  beq_iff_eq.1 (encodeWord_row i h).1

/-- ADD records its reads, and writes X[rd] and nothing else. -/
theorem exec_add (rd ra rb : XField) (s : State) :
    exec (.add rd ra rb) s = .next ((s.withRunFault (recordAfter s (limbsRead (.add rd ra rb)))).writeX rd
      (add128 (s.readX .a ra) (s.readX .b rb))) := by
  rw [← State.noteLimbs_eq]
  rfl

/-- SUB records its reads, and writes X[rd] and nothing else. -/
theorem exec_sub (rd ra rb : XField) (s : State) :
    exec (.sub rd ra rb) s = .next ((s.withRunFault (recordAfter s (limbsRead (.sub rd ra rb)))).writeX rd
      (sub128 (s.readX .a ra) (s.readX .b rb))) := by
  rw [← State.noteLimbs_eq]
  rfl

/-- Settles O8: after ADD, X[rd] reads as the value of the adder. -/
theorem addWritesSumModulo : Obligations.AddWritesSumModulo := by
  unfold Obligations.AddWritesSumModulo
  intro rd ra rb
  refine ⟨encodeWord_and_mask (i := .add rd ra rb) rfl, fun s => ⟨_, exec_add rd ra rb s, rfl, fun p => ?_⟩⟩
  rw [State.readX_writeX_same, add128_toNat]

/-- Settles O9: after SUB, X[rd] reads as the value of the subtractor. -/
theorem subWritesDifferenceModulo : Obligations.SubWritesDifferenceModulo := by
  unfold Obligations.SubWritesDifferenceModulo
  intro rd ra rb
  refine ⟨encodeWord_and_mask (i := .sub rd ra rb) rfl, fun s => ⟨_, exec_sub rd ra rb s, rfl, fun p => ?_⟩⟩
  rw [State.readX_writeX_same, sub128_toInt]

/-- Settles O10: CMP stores the compare result in STATUS.CMP, which the host reads in STATUS. -/
theorem cmpWritesCompareResult : Obligations.CmpWritesCompareResult := by
  unfold Obligations.CmpWritesCompareResult
  intro ra rb
  exact ⟨encodeWord_and_mask (i := .cmp ra rb) rfl, fun s =>
    ⟨_, exec_cmp ra rb s, rfl, rfl, cmpFieldOf_cmp128_bits _ _, statusWord_cmp _⟩⟩

/-- Settles O26: each law of the ALU is one about the numbers, and ADD and SUB write no field of STATUS. -/
theorem aluLaws : Obligations.AluLaws := by
  unfold Obligations.AluLaws
  refine ⟨fun a b => ⟨sub128_add128 a b, add128_comm a b, ?equal, ?swap, ?sumWraps, (cmp128_eq_less_iff a b).symm⟩,
    fun rd ra rb s t h => ?status⟩
  case equal => rw [cmp128_eq_equal_iff, sub128_eq_zero_iff]
  case swap => rw [cmp128_eq_less_iff, cmp128_eq_greater_iff]
  case sumWraps => rw [cmp128_eq_less_iff, add128_lt_left_iff]
  case status =>
    rcases h with h | h
    · cases (exec_add rd ra rb s).symm.trans h
      rfl
    · cases (exec_sub rd ra rb s).symm.trans h
      rfl

end Sys2Proof.Machine

/-! The widening multiplier (R140 to R142): mul64 by its number, by its partial products and by the limbs of a square,
and what MULW leaves. -/

namespace Sys2Proof.Machine

/-! ### The multiplier (R140) -/

/-- The product of two limbs is at most (2^64 - 1)^2. -/
theorem limb_mul_le (a b : Limb) : a.toNat * b.toNat ≤ 2 ^ 128 - 2 ^ 65 + 1 :=
  Nat.mul_le_mul (Nat.le_pred_of_lt a.isLt) (Nat.le_pred_of_lt b.isLt)

/-- No bit of the product is lost. -/
theorem mul64_toNat (a b : Limb) : (mul64 a b).toNat = a.toNat * b.toNat := by
  have hle := limb_mul_le a b
  rw [mul64, BitVec.toNat_ofNat, Nat.mod_eq_of_lt (by omega)]

/-- Two numbers whose places add up to the product, the lower one a limb, are the limbs of the product. -/
theorem join128_ofNat_eq_mul64 {a b : Limb} {hi lo : Nat} (hlo : lo < 2 ^ 64)
    (h : hi * 2 ^ 64 + lo = a.toNat * b.toNat) : join128 (BitVec.ofNat 64 hi) (BitVec.ofNat 64 lo) = mul64 a b := by
  have hle := limb_mul_le a b
  have hhi : hi < 2 ^ 64 := by omega
  apply BitVec.eq_of_toNat_eq
  rw [join128_toNat, BitVec.toNat_ofNat, BitVec.toNat_ofNat, Nat.mod_eq_of_lt hhi, Nat.mod_eq_of_lt hlo, h, mul64_toNat]

/-- A product as the sum of the four partial products of the halves, each at its place. -/
theorem mul_eq_partial_products (a b : Nat) : a * b =
    a / 2 ^ 32 * (b / 2 ^ 32) * 2 ^ 64 + (a % 2 ^ 32 * (b / 2 ^ 32) + a / 2 ^ 32 * (b % 2 ^ 32)) * 2 ^ 32
      + a % 2 ^ 32 * (b % 2 ^ 32) := by
  calc a * b = (2 ^ 32 * (a / 2 ^ 32) + a % 2 ^ 32) * (2 ^ 32 * (b / 2 ^ 32) + b % 2 ^ 32) := by
        rw [Nat.div_add_mod, Nat.div_add_mod]
    _ = _ := by ring

/-- The procedure's carries only move parts of the partial products to their limbs: its two limbs add up to the four
partial products at their places. -/
theorem mul64Halves_eq (a b : Limb) : mul64Halves a b = mul64 a b := by
  have hsum := mul_eq_partial_products a.toNat b.toNat
  apply join128_ofNat_eq_mul64
  · omega
  · omega

/-- Settles O27: the value, its bound and the procedure, a lemma each. -/
theorem multiplierIsExact : Obligations.MultiplierIsExact := fun a b =>
  ⟨mul64_toNat a b, (mul64_toNat a b).trans_le (limb_mul_le a b), mul64Halves_eq a b⟩

/-! ### Its laws (R142) -/

theorem mul64_comm (a b : Limb) : mul64 a b = mul64 b a := by
  rw [mul64, mul64, Nat.mul_comm]

/-- A square from the products of its limbs, the cross product taken twice. -/
theorem square_eq_limb_products (s : Limb128) : s.toNat * s.toNat =
    (mul64 (hi128 s) (hi128 s)).toNat * 2 ^ 128 + 2 * (mul64 (lo128 s) (hi128 s)).toNat * 2 ^ 64
      + (mul64 (lo128 s) (lo128 s)).toNat := by
  have hs : s.toNat = (hi128 s).toNat * 2 ^ 64 + (lo128 s).toNat := by
    rw [← join128_toNat, join128_hi128_lo128]
  rw [mul64_toNat, mul64_toNat, mul64_toNat, hs]
  ring

/-- Settles O28: the bound is that of the 128-bit result. -/
theorem multiplierLaws : Obligations.MultiplierLaws :=
  ⟨fun a b => ⟨mul64_comm a b, (mul64 a b).isLt⟩, square_eq_limb_products⟩

/-! ### MULW (R141) -/

/-- Reads of written limbs leave the run's record as it was (R44). -/
theorem recordAfter_of_allWritten {s : State} {ns : List LimbName} (h : s.allWritten ns = true) :
    recordAfter s ns = s.runFault := by
  have hall : ∀ n ∈ ns, s.isWritten n = true := List.all_eq_true.1 h
  have hnone : ns.find? (fun n => !s.isWritten n) = none := List.find?_eq_none.2 fun n hn => by simp [hall n hn]
  rw [recordAfter, hnone]
  cases s.runFault <;> rfl

/-- MULW records its two reads, and writes X[rd] and nothing else. -/
theorem exec_mulw (rd ra rb : XField) (sa sb : LimbSel) (s : State) :
    exec (.mulw rd ra rb sa sb) s = .next ((s.withRunFault (recordAfter s [.x ra sa, .x rb sb])).writeX rd
      (mul64 (s.readLimb .a (.x ra sa)) (s.readLimb .b (.x rb sb)))) := by
  rw [← State.noteLimbs_eq]
  rfl

/-- Settles O11: after MULW, X[rd] reads as the value of the multiplier, and the two limbs read are the selected
ones. -/
theorem mulwWritesExactProduct : Obligations.MulwWritesExactProduct := by
  unfold Obligations.MulwWritesExactProduct
  intro rd ra rb sa sb
  refine ⟨encodeWord_and_mask (i := .mulw rd ra rb sa sb) rfl, fun s =>
    ⟨_, exec_mulw rd ra rb sa sb s, rfl, fun ha hb => ?record, fun p => ?product⟩⟩
  case record => exact recordAfter_of_allWritten (by simp [State.allWritten, ha, hb])
  case product => rw [State.readX_writeX_same, mul64_toNat]

end Sys2Proof.Machine

/-! The squarer (R160 to R162): sqr128 by its number, by its limb procedure and by its bounds, and what SQR leaves. -/

namespace Sys2Proof.Machine

/-! ### The square (R160, R162) -/

theorem square_lt (s : Limb128) : s.toNat * s.toNat < 2 ^ 256 :=
  calc s.toNat * s.toNat < 2 ^ 128 * 2 ^ 128 := Nat.mul_lt_mul'' s.isLt s.isLt
    _ = 2 ^ 256 := by norm_num

/-- No bit of the square is lost. -/
theorem sqr128_toNat (s : Limb128) : (sqr128 s).toNat = s.toNat * s.toNat := by
  rw [sqr128, BitVec.toNat_ofNat, Nat.mod_eq_of_lt (square_lt s)]

/-- Settles O30: below M127 the square is at most that of M127 - 1. -/
theorem squareBounds : Obligations.SquareBounds := by
  unfold Obligations.SquareBounds
  intro s
  refine ⟨fun hs => ?_, (sqr128 s).isLt⟩
  have hle : s.toNat * s.toNat ≤ (2 ^ 127 - 2) * (2 ^ 127 - 2) :=
    Nat.mul_le_mul (Nat.le_pred_of_lt hs) (Nat.le_pred_of_lt hs)
  rw [sqr128_toNat]
  omega

/-! ### The limb procedure (R160) -/

theorem toNat_eq_limbs (v : Limb128) : v.toNat = (hi128 v).toNat * 2 ^ 64 + (lo128 v).toNat := by
  rw [← join128_toNat, join128_hi128_lo128]

/-- A limb shifted left by one takes in the top bit of the limb below it. -/
theorem toNat_shiftLeft_or_ushiftRight (h l : Limb) :
    (h <<< 1 ||| l >>> 63).toNat = 2 * h.toNat % 2 ^ 64 + l.toNat / 2 ^ 63 := by
  have hl := l.isLt
  have htop : l.toNat / 2 ^ 63 < 2 ^ 1 := by omega
  have heven : 2 * h.toNat % 2 ^ 64 = 2 ^ 1 * (h.toNat % 2 ^ 63) := by omega
  rw [BitVec.toNat_or, BitVec.toNat_shiftLeft, BitVec.toNat_ushiftRight, Nat.shiftLeft_eq, Nat.shiftRight_eq_div_pow,
    Nat.mul_comm h.toNat, Nat.pow_one, heven, Nat.two_pow_add_eq_or_of_lt htop]

/-- Doubling a Limb128 limb by limb loses no bit: the limbs d2, d1 and d0 of the procedure, each at its place. -/
theorem doubled_limbs (q : Limb128) :
    (hi128 q >>> 63).toNat * 2 ^ 128 + (hi128 q <<< 1 ||| lo128 q >>> 63).toNat * 2 ^ 64 + (lo128 q <<< 1).toNat
      = 2 * q.toNat := by
  have hq := q.isLt
  simp only [toNat_shiftLeft_or_ushiftRight, BitVec.toNat_shiftLeft, BitVec.toNat_ushiftRight, Nat.shiftLeft_eq,
    Nat.shiftRight_eq_div_pow, hi128_toNat, lo128_toNat]
  omega

/-- Carrying from limb to limb keeps a number that fits 256 bits: no carry leaves limb 3. -/
theorem join256_carries_toNat {t1 b c : Nat} {l0 : Limb}
    (h : c * 2 ^ 192 + b * 2 ^ 128 + t1 * 2 ^ 64 + l0.toNat < 2 ^ 256) :
    (join256 (BitVec.ofNat 64 (c + (b + t1 / 2 ^ 64) / 2 ^ 64)) (BitVec.ofNat 64 (b + t1 / 2 ^ 64))
      (BitVec.ofNat 64 t1) l0).toNat = c * 2 ^ 192 + b * 2 ^ 128 + t1 * 2 ^ 64 + l0.toNat := by
  simp only [join256_toNat, BitVec.toNat_ofNat]
  omega

/-- The columns that the procedure adds up hold the products p and r and the doubled product q, each at its place. -/
theorem columns_eq_products (p q r : Limb128) :
    ((hi128 r).toNat + (hi128 q >>> 63).toNat) * 2 ^ 192
      + ((lo128 r).toNat + (hi128 q <<< 1 ||| lo128 q >>> 63).toNat) * 2 ^ 128
      + ((hi128 p).toNat + (lo128 q <<< 1).toNat) * 2 ^ 64 + (lo128 p).toNat
      = r.toNat * 2 ^ 128 + 2 * q.toNat * 2 ^ 64 + p.toNat := by
  rw [← doubled_limbs q, toNat_eq_limbs p, toNat_eq_limbs r]
  ring

/-- The procedure adds up to the products of the limbs of s, which make up the square. -/
theorem sqr128Limbs_eq (s : Limb128) : sqr128Limbs s = sqr128 s := by
  have hcolumns := (columns_eq_products (mul64 (lo128 s) (lo128 s)) (mul64 (lo128 s) (hi128 s))
    (mul64 (hi128 s) (hi128 s))).trans (square_eq_limb_products s).symm
  apply BitVec.eq_of_toNat_eq
  rw [sqr128_toNat, ← hcolumns]
  exact join256_carries_toNat (hcolumns.trans_lt (square_lt s))

/-- Settles O29: the value, its bound and the procedure, a lemma each. -/
theorem squarerIsExact : Obligations.SquarerIsExact := fun s =>
  ⟨sqr128_toNat s, square_lt s, sqr128Limbs_eq s⟩

/-! ### The word of an ill-formed command (R94) -/

/-- The row of a command reads its operands back, reserved bits included. -/
theorem row_build_encodeWord (i : Instr) : i.row.build (encodeWord i) = i := by
  cases i <;>
    simp [Instr.row, encodeWord, rowNop, rowAdd, rowSub, rowCmp, rowMulw, rowSqr, rowSubw, rowSubwi, rowRed, rowLls,
      rowLdi, rowLdm]

/-- The word of any command has the OP of the command's row. -/
theorem opField_encodeWord (i : Instr) : opField (encodeWord i) = opField i.row.pattern := by
  cases i <;> simp only [encodeWord, opField_formatR, opField_formatI, Instr.row] <;> decide

/-- The word of an ill-formed command is illegal: it could only be of the command's own row, which builds nothing but
well-formed commands. -/
theorem decode_encode_of_not_wellFormed {i : Instr} (h : ¬ i.WellFormed) : ∃ why, decode (encode i) = .error why := by
  rw [encode, decode_setWidth]
  cases hdec : decodeWord (encodeWord i) with
  | error why => exact ⟨why, rfl⟩
  | ok j =>
    obtain ⟨r, hr, hits, -⟩ := decodeWord_eq_ok_iff.1 hdec
    obtain rfl : i.row = r :=
      row_eq_of_opField i.row_mem hr ((opField_encodeWord i).symm.trans (opField_of_hits hr hits))
    exact absurd (row_build_encodeWord i ▸ wellFormed_build hr hits) h

/-! ### SQR (R161) -/

/-- SQR records its reads, and writes W[rd] and nothing else. -/
theorem exec_sqr (rd : WField) (ra : XField) (s : State) :
    exec (.sqr rd ra) s = .next ((s.withRunFault (recordAfter s (xLimbs ra))).writeW (wIndex rd)
      (sqr128 (s.readX .a ra))) := by
  rw [← State.noteLimbs_eq]
  rfl

/-- Settles O12: after SQR, W[rd] reads as the value of the squarer. -/
theorem sqrWritesExactSquare : Obligations.SqrWritesExactSquare := by
  unfold Obligations.SqrWritesExactSquare
  intro rd ra
  refine ⟨encodeWord_and_mask, decode_encode_of_not_wellFormed, fun s =>
    ⟨_, exec_sqr rd ra s, rfl, fun p => ?_⟩⟩
  rw [← wIndex, State.readW_writeW_same, sqr128_toNat]

end Sys2Proof.Machine

/-! The reducer (R180 to R186): each stage of red127 by its number, the residue that the stages keep, the closed form
and where it is exact, and what RED leaves. -/

namespace Sys2Proof.Machine

/-! ### The split and the first fold (R180, R181) -/

/-- Clearing the top bit of a limb. -/
theorem toNat_and_low63 (h : Limb) : (h &&& 0x7FFFFFFFFFFFFFFF#64).toNat = h.toNat % 2 ^ 63 := by
  have hmask : (0x7FFFFFFFFFFFFFFF#64).toNat = 2 ^ 63 - 1 := by decide
  rw [BitVec.toNat_and, hmask, Nat.and_two_pow_sub_one_eq_mod]

theorem splitLow_toNat (x : Limb256) : (splitLow x).toNat = x.toNat % 2 ^ 127 := by
  rw [splitLow, join128_toNat, toNat_and_low63, limb256_toNat, limb256_toNat]
  omega

/-- Both limbs of the high half take in the top bit of the limb below; the top bit of limb 3 is shifted out. -/
theorem splitHigh_toNat (x : Limb256) : (splitHigh x).toNat = x.toNat / 2 ^ 127 % 2 ^ 128 := by
  have hx := x.isLt
  rw [splitHigh, join128_toNat, BitVec.or_comm, BitVec.or_comm (limb256 x 1 >>> 63), toNat_shiftLeft_or_ushiftRight,
    toNat_shiftLeft_or_ushiftRight, limb256_toNat, limb256_toNat, limb256_toNat]
  omega

theorem firstFold_toNat (x : Limb256) :
    (firstFold x).toNat = (x.toNat % 2 ^ 127 + x.toNat / 2 ^ 127 % 2 ^ 128) % 2 ^ 128 := by
  rw [firstFold, add128_toNat, splitLow_toNat, splitHigh_toNat]

/-- Settles O31: the halves and their sum, a lemma each. -/
theorem splitAndFirstFold : Obligations.SplitAndFirstFold := fun x =>
  ⟨splitLow_toNat x, splitHigh_toNat x, firstFold_toNat x⟩

/-! ### The second fold (R182) -/

theorem getLsbD_top_iff {w : Nat} (v : BitVec w) : v.getLsbD (w - 1) = true ↔ 2 ^ (w - 1) ≤ v.toNat := by
  rw [← BitVec.msb_eq_getLsbD_last, BitVec.msb_eq_decide, decide_eq_true_iff]

theorem hi128_topBit_iff (r : Limb128) : (hi128 r).getLsbD 63 = true ↔ 2 ^ 127 ≤ r.toNat := by
  rw [getLsbD_top_iff (hi128 r), hi128_toNat]
  omega

/-- Adding 1 at bit 0, a wrap of the low limb carrying into a high limb that has room for it. -/
theorem join128_increment_toNat {h : Limb} (hroom : h.toNat < 2 ^ 63) (l : Limb) :
    (join128 (h + if l + 1 = 0 then 1 else 0) (l + 1)).toNat = h.toNat * 2 ^ 64 + l.toNat + 1 := by
  have hl := l.isLt
  have hwrap : l + 1 = 0 ↔ l.toNat = 2 ^ 64 - 1 := by
    rw [← BitVec.toNat_inj, BitVec.toNat_add]
    change (l.toNat + 1) % 2 ^ 64 = 0 ↔ _
    omega
  simp only [hwrap]
  simp only [join128_toNat, BitVec.toNat_add, apply_ite BitVec.toNat, BitVec.ofNat_eq_ofNat, BitVec.toNat_ofNat]
  split_ifs <;> omega

theorem secondFold_of_lt {r : Limb128} (h : r.toNat < 2 ^ 127) : secondFold r = r := by
  rw [secondFold, if_neg (by rw [hi128_topBit_iff]; omega)]

theorem secondFold_toNat_of_ge {r : Limb128} (h : 2 ^ 127 ≤ r.toNat) :
    (secondFold r).toNat = r.toNat - 2 ^ 127 + 1 := by
  have hr := r.isLt
  rw [secondFold, if_pos ((hi128_topBit_iff r).2 h), join128_increment_toNat (by rw [toNat_and_low63]; omega),
    toNat_and_low63, hi128_toNat, lo128_toNat]
  omega

theorem secondFold_le (r : Limb128) : (secondFold r).toNat ≤ 2 ^ 127 := by
  have hr := r.isLt
  rcases Nat.lt_or_ge r.toNat (2 ^ 127) with h | h
  · rw [secondFold_of_lt h]
    omega
  · rw [secondFold_toNat_of_ge h]
    omega

/-- Settles O32: below 2^127 the second fold gives r itself, so 2^127 comes from a set bit 127. -/
theorem secondFoldValue : Obligations.SecondFoldValue := by
  unfold Obligations.SecondFoldValue
  refine fun r => ⟨secondFold_toNat_of_ge, secondFold_of_lt, secondFold_le r, fun htop => ?_⟩
  rcases Nat.lt_or_ge r.toNat (2 ^ 127) with h | h
  · rw [secondFold_of_lt h] at htop
    omega
  · rw [secondFold_toNat_of_ge h] at htop
    omega

/-- 2^127 leaves the residue 1, so the second fold keeps the residue. -/
theorem secondFold_mod (r : Limb128) : (secondFold r).toNat % (2 ^ 127 - 1) = r.toNat % (2 ^ 127 - 1) := by
  rcases Nat.lt_or_ge r.toNat (2 ^ 127) with h | h
  · rw [secondFold_of_lt h]
  · rw [secondFold_toNat_of_ge h]
    omega

/-! ### The final normalisation (R183) -/

theorem normalise127_of_lt {r : Limb128} (h : r.toNat < 2 ^ 127 - 1) : normalise127 r = r := by
  rw [normalise127, if_pos (by rwa [cmp128_eq_less_iff, m127_toNat])]

theorem normalise127_toNat_of_ge {r : Limb128} (h : 2 ^ 127 - 1 ≤ r.toNat) :
    (normalise127 r).toNat = r.toNat - (2 ^ 127 - 1) := by
  have hr := r.isLt
  rw [normalise127, if_neg (by rwa [cmp128_eq_less_iff, m127_toNat, not_lt]), sub128_toNat, m127_toNat]
  omega

/-- One subtraction reaches the representative below M127. -/
theorem normalise127_toNat_of_le {r : Limb128} (h : r.toNat ≤ 2 ^ 127) :
    (normalise127 r).toNat = r.toNat % (2 ^ 127 - 1) := by
  rcases Nat.lt_or_ge r.toNat (2 ^ 127 - 1) with hlt | hge
  · rw [normalise127_of_lt hlt, Nat.mod_eq_of_lt hlt]
  · rw [normalise127_toNat_of_ge hge]
    omega

/-- The stages after the first fold compute its residue. -/
theorem red127_toNat (x : Limb256) : (red127 x).toNat = (firstFold x).toNat % (2 ^ 127 - 1) := by
  rw [red127, normalise127_toNat_of_le (secondFold_le _), secondFold_mod]

/-- Settles O33: the result is a residue modulo M127. -/
theorem reducerRange : Obligations.ReducerRange := by
  unfold Obligations.ReducerRange
  refine ⟨fun _ => normalise127_of_lt, fun _ => normalise127_toNat_of_ge, fun x => ?_⟩
  rw [red127_toNat]
  exact Nat.mod_lt _ (by norm_num)

/-! ### The closed form (R185) -/

theorem bit255_eq (x : Limb256) : bit255 x = x.toNat / 2 ^ 255 := by
  have hx := x.isLt
  simp only [bit255, getLsbD_top_iff x]
  split_ifs <;> omega

theorem foldCarry_eq (x : Limb256) :
    foldCarry x = (x.toNat % 2 ^ 127 + x.toNat / 2 ^ 127 % 2 ^ 128) / 2 ^ 128 := by
  rw [foldCarry]
  split_ifs <;> omega

/-- The first fold is the exact sum of the two parts less 2^128 for the bit that the split drops and for the carry that
the adder drops. -/
theorem firstFold_add_lost (x : Limb256) :
    (firstFold x).toNat + 2 ^ 128 * (bit255 x + foldCarry x) = x.toNat % 2 ^ 127 + x.toNat / 2 ^ 127 := by
  rw [firstFold_toNat, bit255_eq, foldCarry_eq]
  omega

/-- 2^127 leaves the residue 1, so the parts of x add up to its residue, and each 2^128 lost takes 2 from it. -/
theorem red127_eq_closed (x : Limb256) : ((red127 x).toNat : Int) = red127Closed x := by
  have hlost := firstFold_add_lost x
  rw [red127_toNat, red127Closed, m127_toNat]
  omega

/-- Settles O34, as `red127_eq_closed`. -/
theorem reducerClosedForm : Obligations.ReducerClosedForm := by
  unfold Obligations.ReducerClosedForm
  intro x
  rw [red127_eq_closed, red127Closed, m127_toNat, bit255, foldCarry]
  push_cast
  rfl

/-! ### Exactness (R186) -/

theorem bit255_add_foldCarry_le (x : Limb256) : bit255 x + foldCarry x ≤ 2 := by
  rw [bit255, foldCarry]
  split_ifs <;> omega

theorem bit255_add_foldCarry_eq_zero_iff (x : Limb256) : bit255 x + foldCarry x = 0 ↔
    x.getLsbD 255 = false ∧ x.toNat % 2 ^ 127 + x.toNat / 2 ^ 127 % 2 ^ 128 < 2 ^ 128 := by
  rw [bit255, foldCarry, Nat.add_eq_zero_iff, ite_eq_right_iff, ite_eq_right_iff]
  simp

/-- Each 2^128 lost takes 2 from the residue. -/
theorem red127_eq_mod_sub {x : Limb256} {k : Nat} (h : bit255 x + foldCarry x = k) :
    ((red127 x).toNat : Int) = ((x.toNat : Int) % (2 ^ 127 - 1) - 2 * (k : Int)) % (2 ^ 127 - 1) := by
  rw [red127_eq_closed, red127Closed, m127_toNat, ← h, Int.emod_sub_emod]
  push_cast
  rfl

/-- Neither 2 nor 4 is 0 modulo M127. -/
theorem red127_eq_mod_iff (x : Limb256) :
    (red127 x).toNat = x.toNat % (2 ^ 127 - 1) ↔ bit255 x + foldCarry x = 0 := by
  have hle := bit255_add_foldCarry_le x
  have hred := red127_eq_mod_sub (x := x) rfl
  generalize bit255 x + foldCarry x = k at *
  interval_cases k <;> omega

/-- Below 2^254 both halves are below 2^127, and nothing is lost. -/
theorem red127_of_lt {x : Limb256} (h : x.toNat < 2 ^ 254) : (red127 x).toNat = x.toNat % (2 ^ 127 - 1) := by
  rw [red127_eq_mod_iff, bit255_eq, foldCarry_eq]
  omega

/-- From 2 on, the square less 2 does not wrap. -/
theorem subs256_sqr128_two_toNat {s : Limb128} (h : 2 ≤ s.toNat) :
    (subs256 (sqr128 s) 2).toNat = s.toNat * s.toNat - 2 := by
  have hfour : 2 * 2 ≤ s.toNat * s.toNat := Nat.mul_le_mul h h
  have hlt := square_lt s
  have htwo : (2 : Limb).toNat = 2 := rfl
  rw [subs256_toNat, sqr128_toNat, htwo]
  omega

/-- Settles O35: the closed form, with nothing lost, with 1 or 2 times 2^128 lost, and on the inputs of the step. -/
theorem reducerExactness : Obligations.ReducerExactness := by
  unfold Obligations.ReducerExactness
  refine ⟨fun x => (red127_eq_mod_iff x).trans (bit255_add_foldCarry_eq_zero_iff x), fun x hx => ?lost,
    fun x => red127_of_lt, fun s hs hlt => ?step⟩
  case lost =>
    have hle := bit255_add_foldCarry_le x
    have hpos : bit255 x + foldCarry x ≠ 0 := by
      rwa [Ne, bit255_add_foldCarry_eq_zero_iff, not_and_or, Bool.not_eq_false, not_lt]
    rcases (by omega : bit255 x + foldCarry x = 1 ∨ bit255 x + foldCarry x = 2) with h | h
    · exact .inl (red127_eq_mod_sub h)
    · exact .inr (red127_eq_mod_sub h)
  case step =>
    have hsquare : s.toNat * s.toNat < 2 ^ 254 := sqr128_toNat s ▸ ((squareBounds s).1 hlt).2
    have hval := subs256_sqr128_two_toNat hs
    rw [red127_of_lt (by omega), hval]

/-! ### RED (R184) -/

/-- RED records its reads, and writes X[rd] and nothing else. -/
theorem exec_red (rd : XField) (ra : WField) (s : State) :
    exec (.red rd ra) s = .next ((s.withRunFault (recordAfter s (wLimbs (wIndex ra)))).writeX rd
      (red127 (s.readW .a (wIndex ra)))) := by
  rw [← State.noteLimbs_eq]
  rfl

/-- Settles O15: after RED, X[rd] reads as the value of the reducer. -/
theorem redWritesReducedValue : Obligations.RedWritesReducedValue := by
  unfold Obligations.RedWritesReducedValue
  intro rd ra
  exact ⟨encodeWord_and_mask, decode_encode_of_not_wellFormed, fun s =>
    ⟨_, exec_red rd ra s, rfl, fun p => State.readX_writeX_same _ p rd _⟩⟩

end Sys2Proof.Machine

/-! The 256-bit subtractor (R200, R204): subs256 by its number, by its borrow chain and by its two cases, and what
SUBW and SUBWI leave (R201, R203). -/

namespace Sys2Proof.Machine

/-! ### The value (R200) -/

theorem subs256_toInt (x : Limb256) (v : Limb) :
    ((subs256 x v).toNat : Int) = ((x.toNat : Int) - v.toNat) % 2 ^ 256 := by
  rw [subs256, BitVec.toNat_ofInt]
  omega

/-! ### The borrow chain (R200) -/

/-- A borrow is worth 2^64 to the limb that takes it: the limb stored is the exact difference with the borrow added. -/
theorem ofInt_toNat_eq_add_borrow {t : Int} (hlo : -2 ^ 64 ≤ t) (hhi : t < 2 ^ 64) :
    ((BitVec.ofInt 64 t).toNat : Int) = t + 2 ^ 64 * borrowOf t := by
  rw [BitVec.toNat_ofInt, borrowOf]
  split <;> omega

theorem borrowOf_nonneg_le_one (t : Int) : 0 ≤ borrowOf t ∧ borrowOf t ≤ 1 := by
  rw [borrowOf]
  split <;> decide

/-- Each borrow within the chain is given by one limb and taken by the next, so the chain's number differs from the
difference by the last borrow only. -/
theorem join256_borrows_toInt {l0 l1 l2 l3 v : Limb} {t0 t1 t2 t3 : Int} (h0 : t0 = l0.toNat - v.toNat)
    (h1 : t1 = l1.toNat - borrowOf t0) (h2 : t2 = l2.toNat - borrowOf t1) (h3 : t3 = l3.toNat - borrowOf t2) :
    ((join256 (BitVec.ofInt 64 t3) (BitVec.ofInt 64 t2) (BitVec.ofInt 64 t1) (BitVec.ofInt 64 t0)).toNat : Int)
      = (join256 l3 l2 l1 l0).toNat - v.toNat + 2 ^ 256 * borrowOf t3 := by
  have hb0 := borrowOf_nonneg_le_one t0
  have hb1 := borrowOf_nonneg_le_one t1
  have hb2 := borrowOf_nonneg_le_one t2
  have hl0 := ofInt_toNat_eq_add_borrow (t := t0) (by omega) (by omega)
  have hl1 := ofInt_toNat_eq_add_borrow (t := t1) (by omega) (by omega)
  have hl2 := ofInt_toNat_eq_add_borrow (t := t2) (by omega) (by omega)
  have hl3 := ofInt_toNat_eq_add_borrow (t := t3) (by omega) (by omega)
  rw [join256_toNat, join256_toNat]
  omega

theorem subs256Limbs_eq (x : Limb256) (v : Limb) : subs256Limbs x v = subs256 x v := by
  obtain ⟨b, hchain⟩ : ∃ b : Int, ((subs256Limbs x v).toNat : Int) = x.toNat - v.toNat + 2 ^ 256 * b :=
    ⟨_, (join256_borrows_toInt rfl rfl rfl rfl).trans (by rw [join256_limbs])⟩
  have hvalue := subs256_toInt x v
  have hlt := (subs256Limbs x v).isLt
  apply BitVec.eq_of_toNat_eq
  omega

/-- Settles O36: the value, and the procedure whose last borrow is a multiple of 2^256. -/
theorem wideSubtractorIsDifferenceModulo : Obligations.WideSubtractorIsDifferenceModulo := fun x v =>
  ⟨subs256_toInt x v, subs256Limbs_eq x v⟩

/-! ### Where it is exact and where it wraps (R204) -/

theorem subs256_toNat_of_le {x : Limb256} {v : Limb} (h : v.toNat ≤ x.toNat) :
    (subs256 x v).toNat = x.toNat - v.toNat := by
  have hx := x.isLt
  rw [subs256_toNat]
  omega

theorem subs256_toNat_of_lt {x : Limb256} {v : Limb} (h : x.toNat < v.toNat) :
    (subs256 x v).toNat = 2 ^ 256 + x.toNat - v.toNat := by
  have hv := v.isLt
  rw [subs256_toNat]
  omega

/-- 1 is its own square, and squaring keeps the order. -/
theorem two_le_sqr128_iff (s : Limb128) : 2 ≤ (sqr128 s).toNat ↔ 2 ≤ s.toNat := by
  rw [sqr128_toNat]
  exact Nat.mul_self_lt_mul_self_iff (m := 1)

/-- Settles O37, a lemma for each law. -/
theorem wideSubtractorLaws : Obligations.WideSubtractorLaws :=
  ⟨fun _ _ => ⟨subs256_toNat_of_le, subs256_toNat_of_lt⟩, two_le_sqr128_iff⟩

/-! ### SUBW and SUBWI (R201, R203) -/

/-- SUBW records its reads, X[rb].lo the last of them, and writes W[rd] and nothing else. -/
theorem exec_subw (rd ra : WField) (rb : XField) (s : State) :
    exec (.subw rd ra rb) s = .next ((s.withRunFault (recordAfter s (wLimbs (wIndex ra) ++ [.x rb .lo]))).writeW
      (wIndex rd) (subs256 (s.readW .a (wIndex ra)) (s.readLimb .b (.x rb .lo)))) := by
  rw [← State.noteLimbs_eq]
  rfl

/-- SUBWI records its reads, and writes W[rd] and nothing else. -/
theorem exec_subwi (rd ra : WField) (imm : BitVec 16) (s : State) :
    exec (.subwi rd ra imm) s = .next ((s.withRunFault (recordAfter s (wLimbs (wIndex ra)))).writeW (wIndex rd)
      (subs256 (s.readW .a (wIndex ra)) (immToLimb imm))) := by
  rw [← State.noteLimbs_eq]
  rfl

/-- Zero extension keeps the immediate's number (R95). -/
theorem immToLimb_toNat (imm : BitVec 16) : (immToLimb imm).toNat = imm.toNat :=
  BitVec.toNat_setWidth_of_le (by decide)

/-- Settles O13: after SUBW, W[rd] reads as the value of the subtractor, and the limbs read are W[ra]'s and X[rb].lo. -/
theorem subwWritesDifferenceModulo : Obligations.SubwWritesDifferenceModulo := by
  unfold Obligations.SubwWritesDifferenceModulo
  intro rd ra rb
  refine ⟨encodeWord_and_mask, decode_encode_of_not_wellFormed, fun s =>
    ⟨_, exec_subw rd ra rb s, rfl, fun hw hx => ?record, fun p => ?difference⟩⟩
  case record =>
    have hall : s.allWritten (wLimbs (wIndex ra) ++ [.x rb .lo]) = true := by
      rw [State.allWritten, List.all_append, Bool.and_eq_true]
      exact ⟨hw, by simp [hx]⟩
    exact recordAfter_of_allWritten hall
  case difference => rw [← wIndex, State.readW_writeW_same, subs256_toInt, wIndex]

/-- Settles O14: after SUBWI, W[rd] reads as the value of the subtractor on the zero-extended immediate. -/
theorem subwiWritesDifferenceModulo : Obligations.SubwiWritesDifferenceModulo := by
  unfold Obligations.SubwiWritesDifferenceModulo
  intro rd ra imm
  refine ⟨encodeWord_and_mask, decode_encode_of_not_wellFormed, fun s =>
    ⟨_, exec_subwi rd ra imm s, rfl, fun p => ?_⟩⟩
  rw [← wIndex, State.readW_writeW_same, subs256_toInt, immToLimb_toNat, wIndex]

end Sys2Proof.Machine

/-! The Lucas–Lehmer step (R220 to R224): llstep by its number on the domain and off it, what LLS leaves, and the
explicit pipeline SQR, SUBWI, RED that gives the same value. -/

namespace Sys2Proof.Machine

/-! ### The value (R222, R223) -/

theorem outsideDomain_iff (v : Limb128) : outsideDomain v = true ↔ 2 ^ 127 - 1 ≤ v.toNat := by
  rw [outsideDomain_eq, Bool.not_eq_true', decide_eq_false_iff_not, not_lt]

/-- The step's value is a residue, on the domain and off it. -/
theorem llstep_toNat_lt (v : Limb128) : (llstep v).toNat < 2 ^ 127 - 1 := by
  obtain ⟨-, -, hrange⟩ := reducerRange
  exact hrange _

/-- From 2 on, the subtraction does not wrap and the reducer is exact on its result. -/
theorem llstep_toNat_of_two_le {v : Limb128} (htwo : 2 ≤ v.toNat) (hlt : v.toNat < 2 ^ 127 - 1) :
    (llstep v).toNat = (v.toNat * v.toNat - 2) % (2 ^ 127 - 1) := by
  obtain ⟨-, -, -, hstep⟩ := reducerExactness
  exact hstep v htwo hlt

/-- For 0 and 1 the subtraction wraps, and the bits that the reducer loses make up for the 2^256 that the wrap adds. -/
theorem llstep_toInt_of_lt {v : Limb128} (hlt : v.toNat < 2 ^ 127 - 1) :
    ((llstep v).toNat : Int) = ((v.toNat : Int) ^ 2 - 2) % (2 ^ 127 - 1) := by
  rcases (by omega : v.toNat = 0 ∨ v.toNat = 1 ∨ 2 ≤ v.toNat) with hzero | hone | htwo
  · obtain rfl : v = 0#128 := BitVec.eq_of_toNat_eq hzero
    decide
  · obtain rfl : v = 1#128 := BitVec.eq_of_toNat_eq hone
    decide
  · have hle : 2 ≤ v.toNat * v.toNat := htwo.trans (Nat.le_mul_self _)
    rw [llstep_toNat_of_two_le htwo hlt, sq]
    push_cast [hle]
    rfl

/-! ### LLS (R221 to R224) -/

/-- LLS records its reads, reports its operand in STATUS.DOM, and writes X[rd] and nothing else. -/
theorem exec_lls (rd ra : XField) (s : State) :
    exec (.lls rd ra) s = .next (((s.withRunFault (recordAfter s (xLimbs ra))).reportDomain (s.readX .a ra)).writeX rd
      (llstep (s.readX .a ra))) := by
  rw [← State.noteLimbs_eq]
  rfl

/-- After LLS, X[rd] reads as the step of its operand, whatever else the state holds. -/
theorem exec_lls_readX {rd ra : XField} {s t : State} (h : exec (.lls rd ra) s = .next t) (p : Config.ReadPort) :
    t.readX p rd = llstep (s.readX .a ra) := by
  cases (exec_lls rd ra s).symm.trans h
  exact State.readX_writeX_same _ p rd _

/-- A command whose sources are written leaves the run's record as it was (R44). -/
theorem exec_runFault_of_readyFor {i : Instr} {s t : State} (hready : s.ReadyFor i) (h : exec i s = .next t) :
    t.runFault = s.runFault :=
  (exec_runFault h).trans (recordAfter_of_allWritten hready)

/-- Settles O16: what LLS leaves is `exec_lls`, and its domain test is the numeric one. -/
theorem llsWritesStepAndReportsDomain : Obligations.LlsWritesStepAndReportsDomain := by
  unfold Obligations.LlsWritesStepAndReportsDomain
  refine fun rd ra => ⟨encodeWord_and_mask (i := .lls rd ra) rfl, fun s =>
    ⟨_, exec_lls rd ra s, exec_lls_readX (exec_lls rd ra s), rfl, rfl, rfl, recordAfter_of_allWritten, ?domain⟩⟩
  case domain => rw [exec_lls_status (exec_lls rd ra s), Bool.or_eq_true, outsideDomain_iff]

/-- Settles O38: on the domain the step is the recurrence, and LLS reports nothing in STATUS.DOM. -/
theorem llsComputesRecurrence : Obligations.LlsComputesRecurrence := by
  unfold Obligations.LlsComputesRecurrence
  refine fun rd ra s hlt => ⟨_, exec_lls rd ra s, ?status, fun p => ?recurrence⟩
  case status =>
    have hin : outsideDomain (s.readX .a ra) = false := by
      rwa [← Bool.not_eq_true, outsideDomain_iff, not_le]
    rw [exec_lls_status (exec_lls rd ra s), hin, Bool.or_false]
  case recurrence =>
    rw [exec_lls_readX (exec_lls rd ra s)]
    exact ⟨llstep_toInt_of_lt hlt, llstep_toNat_lt _⟩

/-- Settles O39: off the domain LLS does all it does on it, and sets STATUS.DOM; the spec's values are evaluated. -/
theorem llsOutsideDomain : Obligations.LlsOutsideDomain := by
  unfold Obligations.LlsOutsideDomain
  refine ⟨fun rd ra s hge => ⟨_, exec_lls rd ra s, ?status, fun p => ?value⟩,
    by decide, by decide, by decide, by decide, by decide, by decide, by decide⟩
  case status => rw [exec_lls_status (exec_lls rd ra s), (outsideDomain_iff _).2 hge, Bool.or_true]
  case value =>
    rw [exec_lls_readX (exec_lls rd ra s)]
    exact ⟨rfl, llstep_toNat_lt _⟩

/-- Settles O40: both results are the step of the one operand. -/
theorem llsIsPure : Obligations.LlsIsPure := by
  unfold Obligations.LlsIsPure
  intro rd₁ ra₁ rd₂ ra₂ s₁ s₂ t₁ t₂ hoperand h₁ h₂ p
  rw [exec_lls_readX h₁, exec_lls_readX h₂, hoperand]

/-! ### The explicit pipeline (R220) -/

/-- After SQR, W[rd] reads as the square of its operand. -/
theorem exec_sqr_readW {rd : WField} {ra : XField} {s t : State} (h : exec (.sqr rd ra) s = .next t)
    (p : Config.ReadPort) : t.readW p (wIndex rd) = sqr128 (s.readX .a ra) := by
  cases (exec_sqr rd ra s).symm.trans h
  exact State.readW_writeW_same _ p (wIndex rd) _

/-- After SUBWI, W[rd] reads as the difference of its operand and the immediate. -/
theorem exec_subwi_readW {rd ra : WField} {imm : BitVec 16} {s t : State} (h : exec (.subwi rd ra imm) s = .next t)
    (p : Config.ReadPort) : t.readW p (wIndex rd) = subs256 (s.readW .a (wIndex ra)) (immToLimb imm) := by
  cases (exec_subwi rd ra imm s).symm.trans h
  exact State.readW_writeW_same _ p (wIndex rd) _

/-- After RED, X[rd] reads as its operand reduced. -/
theorem exec_red_readX {rd : XField} {ra : WField} {s t : State} (h : exec (.red rd ra) s = .next t)
    (p : Config.ReadPort) : t.readX p rd = red127 (s.readW .a (wIndex ra)) := by
  cases (exec_red rd ra s).symm.trans h
  exact State.readX_writeX_same _ p rd _

/-- A command that reads just what the one before it wrote finds its sources written. -/
theorem readyFor_of_exec {i j : Instr} {s t : State} (hlimbs : limbsRead j = limbsWritten i)
    (h : exec i s = .next t) : t.ReadyFor j := by
  rw [State.ReadyFor, hlimbs]
  exact List.all_eq_true.2 fun _ hn => exec_marks h hn

/-- Settles O41: each stage hands its result on in W[w], which it has just written, so RED reduces what the step
reduces, and only SQR reads limbs that were there before. -/
theorem explicitPipelineEqualsLls : Obligations.ExplicitPipelineEqualsLls := by
  unfold Obligations.ExplicitPipelineEqualsLls
  intro rd ra w s
  obtain ⟨s₁, hsqr⟩ := exec_completes (.sqr w ra) s
  obtain ⟨s₂, hsubwi⟩ := exec_completes (.subwi w w 2) s₁
  obtain ⟨s₃, hred⟩ := exec_completes (.red rd w) s₂
  obtain ⟨t, hlls⟩ := exec_completes (.lls rd ra) s
  obtain ⟨-, hw, -⟩ := xCommandFrame (.lls rd ra) rd rfl s t hlls
  refine ⟨s₁, s₂, s₃, t, hsqr, hsubwi, hred, hlls, hw, fun hready =>
    ⟨?record, exec_runFault_of_readyFor hready hlls, fun p => ?value⟩⟩
  case record =>
    calc s₃.runFault = s₂.runFault := exec_runFault_of_readyFor (readyFor_of_exec rfl hsubwi) hred
      _ = s₁.runFault := exec_runFault_of_readyFor (readyFor_of_exec rfl hsqr) hsubwi
      _ = s.runFault := exec_runFault_of_readyFor (i := .sqr w ra) hready hsqr
  case value =>
    rw [exec_lls_readX hlls, exec_red_readX hred, exec_subwi_readW hsubwi, exec_sqr_readW hsqr]
    rfl

end Sys2Proof.Machine

/-! The auxiliary commands (R240 to R244): which CMD value NOP is, and what LDI and LDM leave in the limbs of their
destination. -/

namespace Sys2Proof.Machine

/-! ### NOP (R240) -/

/-- A CMD value decodes to a well-formed command iff it is the command's encoding (R90, R102). -/
theorem decode_eq_ok_iff_eq_encode {i : Instr} (h : i.WellFormed) {v : BitVec 64} :
    decode v = .ok i ↔ v = encode i := by
  constructor
  · intro hdec
    obtain ⟨-, henc⟩ := legalValueIsItsEncoding v i hdec
    exact henc.symm
  · rintro rfl
    exact decode_encode h

/-- Settles O5: NOP is well formed, and its encoding is 0. -/
theorem nopIsTheZeroWordAndChangesNothing : Obligations.NopIsTheZeroWordAndChangesNothing := by
  have henc : encode .nop = 0 := rfl
  exact ⟨fun v => henc ▸ decode_eq_ok_iff_eq_encode (i := .nop) rfl, fun _ => rfl⟩

/-! ### LDI and LDM (R242, R244) -/

/-- After a command writes X[i], each limb of X[i] reads as that limb of the value written. -/
theorem State.readLimb_writeX_same (s : State) (p : Config.ReadPort) (i : BitVec 3) (v : Limb128) :
    (s.writeX i v).readLimb p (.x i .lo) = lo128 v ∧ (s.writeX i v).readLimb p (.x i .hi) = hi128 v := by
  constructor
  · rw [State.readLimb_of_written (s.writeX_marks (by simp [xLimbs]) v), State.writeX_cell_lo]
  · rw [State.readLimb_of_written (s.writeX_marks (by simp [xLimbs]) v), State.writeX_cell_hi]

/-- LDI writes X[rd] and nothing else. -/
theorem exec_ldi (rd : XField) (imm : BitVec 16) (s : State) :
    exec (.ldi rd imm) s = .next (s.writeX rd (immTo128 imm)) := rfl

/-- LDM writes X[rd] and nothing else. -/
theorem exec_ldm (rd : XField) (s : State) : exec (.ldm rd) s = .next (s.writeX rd Config.m127) := rfl

/-- The immediate is zero-extended within the low limb. -/
theorem lo128_immTo128_toNat (imm : BitVec 16) : (lo128 (immTo128 imm)).toNat = imm.toNat := by
  have := imm.isLt
  rw [lo128_toNat, immTo128, BitVec.toNat_setWidth]
  omega

/-- The zero-extension of the immediate leaves the high limb 0. -/
theorem hi128_immTo128 (imm : BitVec 16) : hi128 (immTo128 imm) = 0 := by
  have := imm.isLt
  apply BitVec.eq_of_toNat_eq
  calc (hi128 (immTo128 imm)).toNat = imm.toNat % 2 ^ 128 / 2 ^ 64 := by
        rw [hi128_toNat, immTo128, BitVec.toNat_setWidth]
    _ = 0 := by omega

/-- Settles O17: X[rd] holds the two limbs of the zero-extended immediate. -/
theorem ldiLoadsImmediate : Obligations.LdiLoadsImmediate := by
  unfold Obligations.LdiLoadsImmediate
  refine fun rd imm => ⟨encodeWord_and_mask (i := .ldi rd imm) rfl, fun s =>
    ⟨_, exec_ldi rd imm s, rfl, fun p => ?limbs⟩⟩
  obtain ⟨hlo, hhi⟩ := s.readLimb_writeX_same p rd (immTo128 imm)
  rw [hlo, hhi]
  exact ⟨lo128_immTo128_toNat imm, hi128_immTo128 imm⟩

/-- Settles O18: X[rd] holds the two limbs of M127, the constant that MOD reads as in every state. -/
theorem ldmLoadsModulus : Obligations.LdmLoadsModulus := by
  unfold Obligations.LdmLoadsModulus
  exact fun rd => ⟨encodeWord_and_mask (i := .ldm rd) rfl, fun s =>
    ⟨_, exec_ldm rd s, rfl, fun p => s.readLimb_writeX_same p rd Config.m127, hostRead_modLo _, hostRead_modHi _⟩⟩

end Sys2Proof.Machine

/-! The canonical form of the register files (notes/assumptions/2.md): it holds at reset, and every command, every host
event and so every step keeps it. -/

namespace Sys2Proof.Machine

/-- The canonical form speaks of the register files only. -/
theorem State.Canonical.congr {s t : State} (h : s.Canonical) (hx : t.x = s.x) (hw : t.w = s.w) : t.Canonical := by
  intro n hn
  rw [State.isWritten, State.cell_congr hx hw] at hn
  rw [State.cell_congr hx hw]
  exact h n hn

/-- Settles O56: every limb of `State.reset` is `RegLimb.afterReset`, which holds the placeholder. -/
theorem resetIsCanonical : Obligations.ResetIsCanonical := by
  unfold Obligations.ResetIsCanonical
  rintro (⟨i, l | l⟩ | ⟨j, k⟩) - <;>
    simp [State.cell, State.xReg, State.wReg, State.reset, XRegister.afterReset, WRegister.afterReset,
      RegLimb.afterReset]

/-- A command keeps the canonical form: what it writes to the register files is one whole register (R45). -/
theorem exec_canonical {i : Instr} {s t : State} (h : exec i s = .next t) (hs : s.Canonical) : t.Canonical := by
  rcases dest_cases i with ⟨d, hd⟩ | ⟨d, hd⟩ | ⟨ra, rb, rfl⟩ | rfl
  · obtain ⟨f, dom, v, he, -⟩ := exec_of_xDest hd s
    cases he.symm.trans h
    exact State.writeX_canonical (hs.congr rfl rfl) d v
  · obtain ⟨v, he⟩ := exec_of_wDest hd s
    cases he.symm.trans h
    exact State.writeW_canonical (hs.congr rfl rfl) d v
  · cases (exec_cmp ra rb s).symm.trans h
    exact hs.congr rfl rfl
  · cases h
    exact hs

/-- Performing an event keeps the canonical form. -/
theorem Performs.canonical {e : HostEvent} {s t : State} (h : Performs e s t) (hs : s.Canonical) : t.Canonical := by
  cases h with
  | read off =>
    obtain ⟨f, hf⟩ := noteHostRead_frame off s
    rw [hf]
    exact hs.congr rfl rfl
  | writeLimb off v _ n _ => exact State.writeLimb_canonical hs n v
  | command v _ _ i _ hexec => exact exec_canonical hexec hs
  | assertReset => exact State.Canonical.congr resetIsCanonical rfl rfl
  | _ => exact hs.congr rfl rfl

/-- Settles O55, by the events that a step can perform. -/
theorem stepKeepsCanonicalForm : Obligations.StepKeepsCanonicalForm := by
  unfold Obligations.StepKeepsCanonicalForm
  intro s t hs h
  rcases step_cases h with ⟨-, rfl⟩ | ⟨e, es, -, hperf⟩
  · exact hs
  · exact hperf.canonical (hs.congr rfl rfl)

end Sys2Proof.Machine

/-! The two events of the block (R260 to R267): every CMD value is carried out, an illegal one sets ILL and nothing else,
and no CMD write reports both events. -/

namespace Sys2Proof.Machine

/-- Settles O54: a CMD write is the execution of its value, and every value's execution completes. -/
theorem everyCommandCompletes : Obligations.EveryCommandCompletes := by
  unfold Obligations.EveryCommandCompletes
  refine ⟨exec_completes, fun s v es hrun hp => ?_⟩
  rw [step_of_cmdWrite hrun hp]
  exact execute_completes v _

/-- Settles O43: the step is `raiseIllegalCommand` on the state with the event taken and counted. -/
theorem illegalValueSetsIllOnly : Obligations.IllegalValueSetsIllOnly := by
  unfold Obligations.IllegalValueSetsIllOnly
  intro s v es why hrun hp hdec
  refine ⟨_, (step_of_cmdWrite hrun hp).trans (execute_of_illegal hdec _), rfl, ?_⟩
  rw [hostRead_status, statusWord_ill, State.raiseIllegalCommand_status]

/-- An illegal CMD value does not change DOM (R265). -/
theorem StatusEffect.dom_of_illegal {s : State} {v : Limb} {st : Status} {why : Illegal}
    (h : StatusEffect (.write 64 0x108 v) s st) (hdec : decode v = .error why) : st.dom = s.status.dom := by
  cases h with
  | reported _ _ rd ra hlls => cases hdec.symm.trans hlls
  | _ => rfl

/-- A legal CMD value does not change ILL (R265). -/
theorem StatusEffect.ill_of_legal {s : State} {v : Limb} {st : Status} {i : Instr}
    (h : StatusEffect (.write 64 0x108 v) s st) (hdec : decode v = .ok i) : st.ill = s.status.ill := by
  cases h with
  | illegal _ _ why herr => cases hdec.symm.trans herr
  | _ => rfl

/-- A legal CMD value that is no LLS does not change DOM (R40, R265). -/
theorem StatusEffect.dom_of_not_lls {s : State} {v : Limb} {st : Status} {i : Instr}
    (h : StatusEffect (.write 64 0x108 v) s st) (hdec : decode v = .ok i) (hi : isLls i = false) :
    st.dom = s.status.dom := by
  cases h with
  | reported _ _ rd ra hlls =>
    obtain rfl : i = .lls rd ra := Except.ok.inj (hdec.symm.trans hlls)
    cases hi
  | _ => rfl

/-- Settles O53, by what performing a CMD write may do to STATUS. -/
theorem oneEventPerCmdWrite : Obligations.OneEventPerCmdWrite := by
  unfold Obligations.OneEventPerCmdWrite
  intro s t v es hp h
  have hst := (performs_of_step hp h).statusEffect
  exact ⟨fun _ hdec => hst.dom_of_illegal hdec, fun _ hdec => ⟨hst.ill_of_legal hdec, hst.dom_of_not_lls hdec⟩⟩

end Sys2Proof.Machine

/-! The instances of a platform draw from streams of their own (R272, U1; notes/assumptions/18.md): the list of the
streams has no repetition at reset, and no step changes it. -/

namespace Sys2Proof.Machine

/-- Performing an event keeps the instance's stream of free values. -/
theorem Performs.freeStream {e : HostEvent} {s t : State} (h : Performs e s t) : t.freeStream = s.freeStream := by
  cases h with
  | read off =>
    obtain ⟨f, hf⟩ := noteHostRead_frame off s
    rw [hf]; rfl
  | writeLimb off v _ n _ =>
    obtain ⟨x, w, hxw⟩ := s.writeLimb_frame n v
    rw [hxw]
  | command v _ _ i _ hexec =>
    obtain ⟨-, -, -, -, hstream⟩ := exec_sameOutside hexec
    exact hstream
  | _ => rfl

/-- The streams of free values that the instances draw from, in the order of the instances. -/
def Platform.streams (p : Platform) : List Nat := p.instances.map (fun inst => inst.core.freeStream)

/-- The instances are independent when no stream stands twice in the list. -/
theorem Platform.independent_iff (p : Platform) : p.Independent ↔ p.streams.Nodup := by
  constructor
  · intro h
    rw [List.nodup_iff_injective_getElem]
    rintro ⟨j, hj⟩ ⟨k, hk⟩ he
    rw [Platform.streams, List.length_map] at hj hk
    exact Fin.ext (h j k _ _ (List.getElem?_eq_getElem hj) (List.getElem?_eq_getElem hk)
      (by simpa [Platform.streams] using he))
  · intro h j k a b ha hb he
    obtain ⟨hj, -⟩ := List.getElem?_eq_some_iff.1 ha
    have hlen : j < p.streams.length := by simpa [Platform.streams] using hj
    exact (List.getElem?_inj hlen h).1 (by simp [Platform.streams, ha, hb, he])

/-- Instance k of a platform at reset draws from stream k. -/
theorem Platform.atReset_streams (bases : List Nat) (agents : List (List BusEvent)) :
    (Platform.atReset bases agents).streams = List.range bases.length := by
  calc (Platform.atReset bases agents).streams = bases.zipIdx.map Prod.snd := List.map_map
    _ = List.range bases.length := by rw [List.zipIdx_map_snd, List.range_eq_range']

/-- Delivering an event to an instance keeps every instance's stream. -/
theorem Platform.deliver_streams {p q : Platform} {k : Nat} {ev : HostEvent} (h : p.deliver k ev = .next q) :
    q.streams = p.streams := by
  rcases Platform.deliver_cases h with ⟨-, rfl⟩ | ⟨inst, c, hinst, hc, rfl⟩
  · rfl
  · have hstream : c.freeStream = inst.core.freeStream := (performs_of_perform hc).freeStream
    obtain ⟨hk, rfl⟩ := List.getElem?_eq_some_iff.1 hinst
    have hold : p.streams[k]'(by simpa [Platform.streams] using hk) = c.freeStream := by
      simp [Platform.streams, hstream]
    calc (p.instances.set k { p.instances[k] with core := c }).map (fun inst => inst.core.freeStream)
        = p.streams.set k c.freeStream := List.map_set
      _ = p.streams := by rw [← hold, List.set_getElem_self]

/-- A bus event that answers is delivered to some instance. -/
theorem Platform.deliver_of_busEvent {p q : Platform} {e : BusEvent} (h : p.busEvent e = .next q) :
    ∃ k ev, p.deliver k ev = .next q := by
  cases e with
  | read width addr =>
    obtain ⟨k, a, -, -, -, -, hdel⟩ := Platform.busEvent_read h
    exact ⟨k, _, hdel⟩
  | write width addr v =>
    obtain ⟨k, a, -, -, -, -, hdel⟩ := Platform.busEvent_write h
    exact ⟨k, _, hdel⟩
  | assertReset k => exact ⟨k, .assertReset, h⟩
  | releaseReset k => exact ⟨k, .releaseReset, h⟩

/-- A step of a platform keeps every instance's stream, whichever agent is next. -/
theorem Platform.step_streams {p q : Platform} {agent : Nat} (h : p.step agent = .next q) : q.streams = p.streams := by
  unfold Platform.step at h
  split at h
  next e es _ =>
    obtain ⟨k, ev, hdel⟩ := Platform.deliver_of_busEvent h
    have hkept := Platform.deliver_streams hdel
    exact hkept
  · cases h; rfl
  · cases h; rfl

/-- Settles O60: at reset the streams are 0, 1, 2 and so on, and a step keeps the list of them. -/
theorem instancesStayIndependent : Obligations.InstancesStayIndependent := by
  unfold Obligations.InstancesStayIndependent
  refine ⟨fun bases agents => ⟨?apart, by simp [Platform.atReset], fun k base hk => ?started⟩,
    fun p q agent hp h => ?step⟩
  case apart =>
    rw [Platform.independent_iff, Platform.atReset_streams]
    exact List.nodup_range
  case started => simp [Platform.atReset, hk, State.withFreeStream]
  case step =>
    rw [Platform.independent_iff] at hp ⊢
    rwa [Platform.step_streams h]

end Sys2Proof.Machine
